-- ==== Sys2Proof/Word.lean ====
section
/-! DEFINITION. The widths and the small named sets of the block: input levels, edges, payloads, the input ports of one
operation and the two reasons a command word is refused. -/

namespace Sys2Proof

/-- A payload byte (20_memory.md R27) or an 8-bit operand. -/
abbrev Byte := BitVec 8

/-- The `cmd` port (30_encoding.md R42, R43). -/
abbrev CmdWord := BitVec 16

/-- The `frame_id` port and `BMS_ID` (00_scope.md R6, 30_encoding.md R42). -/
abbrev FrameId := BitVec 32

/-- The 8 payload bytes `P[0..7]` of one frame (20_memory.md R27, 30_encoding.md R49). -/
abbrev Payload := Vector Byte 8

/-- A level of the input line: HIGH is released, LOW is pressed (00_scope.md R10). -/
inductive Level where
  | low
  | high
  deriving DecidableEq, Repr, Inhabited

/-- The edge detector's output (41_edge_detector.md R60). -/
inductive Edge where
  | none
  | pressed
  deriving DecidableEq, Repr

/-- The input of one step, the triple of 30_encoding.md R41 and R42. -/
structure PortInput where
  cmd          : CmdWord
  frameId      : FrameId
  framePayload : BitVec 64
  deriving DecidableEq, Repr

/-- The decoder's two reasons to refuse a command word (30_encoding.md R51, 60_exceptions.md R73). -/
inductive DecodeError where
  /-- `cmd[15:7]` is nonzero (R46). -/
  | reservedBits
  /-- A field the selected operation does not use is nonzero (R44, R45). -/
  | unusedFieldNonzero
  deriving DecidableEq, Repr

end Sys2Proof
end

