-- ==== Sys2Proof/Syntax.lean ====
section
/-! DEFINITION. The four operations, one constructor per row of spec/opcode_table.json. -/

namespace Sys2Proof

/-- An operation with its operands as the decoder delivers them (30_encoding.md R48, R49, R51). -/
inductive Instr where
  /-- NOP (42_block_control.md R66). -/
  | nop
  /-- SAMPLE pin (41_edge_detector.md R59). -/
  | sample (pin : Level)
  /-- FRAME (40_field_extractor.md R55): the length `zext_8(cmd[6:3])`, the identifier port, the payload bytes. -/
  | frame (len : Byte) (id : FrameId) (payload : Payload)
  /-- INIT pin (42_block_control.md R64). -/
  | init (pin : Level)
  deriving DecidableEq, Repr

end Sys2Proof
end

