-- ==== Sys2Proof/WellFormed.lean ====
section
/-! DEFINITION. Which terms of Instr are operations the command word can spell. -/

namespace Sys2Proof

/-- The `len` operand is a 4-bit field zero-extended to 8 bits, so it is at most 15 (30_encoding.md R45, R48). Every other
operand fills its type. -/
def Instr.wf : Instr → Bool
  | .nop => true
  | .sample _ => true
  | .frame len _ _ => decide (len.toNat ≤ 15)
  | .init _ => true

/-- The operation is one the command word can spell. -/
abbrev Instr.WellFormed (i : Instr) : Prop := i.wf = true

end Sys2Proof
end

