-- ==== Sys2Proof/Decode.lean ====
section
/-! DEFINITION. The command word's fields, the decoder (total over every port input), the encoder, the opcode map, and the
numbering of an operation's bits that the host's probes use. -/

namespace Sys2Proof

/-! ### Levels and payload bytes on the ports -/

/-- The input level a `pin` bit stands for: 1 is HIGH, 0 is LOW (30_encoding.md R43, R44; 00_scope.md R10). -/
def Level.ofBit (b : BitVec 1) : Level :=
  if b = 1#1 then .high else .low

/-- The `pin` bit of an input level (30_encoding.md R43). -/
def Level.toBit : Level → BitVec 1
  | .low => 0#1
  | .high => 1#1

/-- `P[k] = frame_payload[8k+7 : 8k]` (30_encoding.md R49). -/
def payloadOfPort (w : BitVec 64) : Payload :=
  Vector.ofFn fun k => w.extractLsb' (8 * k.val) 8

/-- The port value that carries the payload bytes: byte 0 at bits `[7:0]`, byte 7 at bits `[63:56]`
(30_encoding.md R49). -/
def portOfPayload (p : Payload) : BitVec 64 :=
  p[7] ++ p[6] ++ p[5] ++ p[4] ++ p[3] ++ p[2] ++ p[1] ++ p[0]

/-! ### The command word (30_encoding.md R43) -/

/-- `cmd[1:0]`. -/
def opField (cmd : CmdWord) : BitVec 2 := cmd.extractLsb' 0 2

/-- `cmd[2]`. -/
def pinField (cmd : CmdWord) : BitVec 1 := cmd.extractLsb' 2 1

/-- `cmd[6:3]`. -/
def lenField (cmd : CmdWord) : BitVec 4 := cmd.extractLsb' 3 4

/-- `cmd[15:7]`. -/
def rsvField (cmd : CmdWord) : BitVec 9 := cmd.extractLsb' 7 9

/-- The decoder of 30_encoding.md R51 with the operand assembly of R48 and R49: reserved bits first, then the unused
fields of the selected operation. The operand ports are read by FRAME only (R42). -/
def decode (p : PortInput) : Except DecodeError Instr :=
  if rsvField p.cmd ≠ 0#9 then .error .reservedBits
  else if opField p.cmd = 0b00#2 then
    if pinField p.cmd ≠ 0#1 ∨ lenField p.cmd ≠ 0#4 then .error .unusedFieldNonzero else .ok .nop
  else if opField p.cmd = 0b01#2 then
    if lenField p.cmd ≠ 0#4 then .error .unusedFieldNonzero else .ok (.sample (Level.ofBit (pinField p.cmd)))
  else if opField p.cmd = 0b10#2 then
    if pinField p.cmd ≠ 0#1 then .error .unusedFieldNonzero
    else .ok (.frame ((lenField p.cmd).zeroExtend 8) p.frameId (payloadOfPort p.framePayload))
  else
    if lenField p.cmd ≠ 0#4 then .error .unusedFieldNonzero else .ok (.init (Level.ofBit (pinField p.cmd)))

/-! ### The encoder -/

/-- A command word from its fields, the reserved bits zero (30_encoding.md R43). -/
def cmdOfFields (len : BitVec 4) (pin : BitVec 1) (op : BitVec 2) : CmdWord :=
  0#9 ++ len ++ pin ++ op

/-- The port input that issues an operation (30_encoding.md section 6). The operand ports, don't-care outside FRAME
(R42), are driven with 0 there. -/
def encode : Instr → PortInput
  | .nop => ⟨cmdOfFields 0#4 0#1 0b00#2, 0#32, 0#64⟩
  | .sample pin => ⟨cmdOfFields 0#4 pin.toBit 0b01#2, 0#32, 0#64⟩
  | .frame len id payload => ⟨cmdOfFields (len.setWidth 4) 0#1 0b10#2, id, portOfPayload payload⟩
  | .init pin => ⟨cmdOfFields 0#4 pin.toBit 0b11#2, 0#32, 0#64⟩

/-! ### The opcode map (30_encoding.md section 6) -/

/-- One row of the opcode map. -/
structure OpcodeRow where
  mnemonic : String
  mask     : CmdWord
  pattern  : CmdWord
  deriving DecidableEq, Repr

/-- The four rows of 30_encoding.md section 6 and spec/opcode_table.json. -/
def opcodeTable : List OpcodeRow :=
  [ ⟨"NOP", 0xFFFF#16, 0x0000#16⟩, ⟨"SAMPLE", 0xFFFB#16, 0x0001#16⟩,
    ⟨"FRAME", 0xFF87#16, 0x0002#16⟩, ⟨"INIT", 0xFFFB#16, 0x0003#16⟩ ]

/-- The mnemonic of an operation's row. -/
def Instr.mnemonic : Instr → String
  | .nop => "NOP"
  | .sample _ => "SAMPLE"
  | .frame _ _ _ => "FRAME"
  | .init _ => "INIT"

/-! ### An operation as one number -/

/-- The port input whose bits are `w`: `cmd` at bits 15..0, then `frame_id` at 47..16, then `frame_payload` at 111..48;
bits at and above `nbits` are 0. The order of the ports in the number is the model's own (DESIGN CHOICE, log 3). -/
def PortInput.ofBits (nbits w : Nat) : PortInput :=
  let v := w % 2 ^ nbits
  ⟨BitVec.ofNat 16 v, BitVec.ofNat 32 (v / 2 ^ 16), BitVec.ofNat 64 (v / 2 ^ 48)⟩

/-- The operation the decoder reads from the `nbits` bits `w`, none where it refuses them. -/
def decodeTableWord (nbits w : Nat) : Option Instr :=
  match decode (PortInput.ofBits nbits w) with
  | .ok i => some i
  | .error _ => none

end Sys2Proof
end

