-- ==== Sys2Proof/Config.lean ====
section
/-! DEFINITION. What is fixed outside the operations: the open build constant and the open level at reset. Neither has a
body, so no proof can see its value and every claim holds whatever it is. -/

namespace Sys2Proof

/-- `BMS_ID`, fixed per build, its value OPEN (00_scope.md R5, R6; 92_eei_decisions.md D9). Log 4. -/
opaque Config.bmsId : FrameId

/-- `pin_at_reset`, the level of the input line when reset is applied, an input of the model (70_reset_and_hazards.md
R86; 92_eei_decisions.md D11). Log 5. -/
opaque Config.pinAtReset : Level

end Sys2Proof
end

