-- ==== Sys2Proof/Machine/State.lean ====
section
/-! DEFINITION. The block's registers, the host's stream of operations not yet taken, the reasons a step can stop, and the
state after reset. -/

namespace Sys2Proof.Machine

/-- The architectural state (10_state.md R14 to R20) and the model's own `pending` (log 1). R14 counts six registers and
names five (log 6). -/
structure State where
  /-- `prev_sample` (R15): the level at the sample before the latest one. -/
  prevSample : Level
  /-- `cur_sample` (R16): the level at the latest sample. -/
  curSample  : Level
  /-- `volt_raw` (R18): the voltage field of the last accepted frame, in 0.1 V. -/
  voltRaw    : BitVec 16
  /-- `soc_raw` (R19): the state-of-charge byte of the last accepted frame, in 0.5 %. -/
  socRaw     : BitVec 8
  /-- `snap_valid` (R20): a frame has been accepted since the last reset or INIT. -/
  snapValid  : Bool
  /-- The operations the host has issued and the block has not taken, oldest first (30_encoding.md R41, 60_exceptions.md
  R78; DESIGN CHOICE, log 1). -/
  pending    : List PortInput
  deriving DecidableEq, Repr

/-- Reasons to stop with a fault: none. No operation of the block raises an exception or faults (60_exceptions.md R68,
R72). Log 8. -/
inductive Fault where
  deriving DecidableEq, Repr

/-- Reasons a step has no next state (60_exceptions.md R73). -/
inductive Refusal where
  /-- Raised by step for a command word with `cmd[15:7]` nonzero (30_encoding.md R46, R51). Safe: no claim can be proved
  about a run that issues one. -/
  | reservedBits
  /-- Raised by step for a command word with a nonzero field its operation does not use (30_encoding.md R44, R45, R51).
  Safe. -/
  | unusedFieldNonzero
  /-- Raised by an arm of exec that has no meaning yet; no arm of this model raises it. Safe. -/
  | notModelled (mnemonic : String)
  deriving DecidableEq, Repr

/-- The state after power-on reset with the input line at `pin` (70_reset_and_hazards.md R86, R87), nothing issued yet. -/
def State.resetAt (pin : Level) : State where
  prevSample := pin
  curSample  := pin
  voltRaw    := 0x0000#16
  socRaw     := 0x00#8
  snapValid  := false
  pending    := []

/-- The state right after reset, the level of the input line being the open `pin_at_reset` (70_reset_and_hazards.md R86).
Log 5. -/
def State.reset : State := State.resetAt Config.pinAtReset

end Sys2Proof.Machine
end

