-- ==== Sys2Proof/Machine/Ops.lean ====
section
/-! DEFINITION. The named operations over the registers, power-on reset, taking the next issued operation, and refusing a
command word. Each register has one home, and every write of it is one of these. The block has no memory (10_state.md R14,
log 7) and takes no exception (60_exceptions.md R68, R72), so there is no memory operation, exception entry or return. -/

namespace Sys2Proof.Machine

/-- The edge detector takes one sample: the latest level becomes the previous one (41_edge_detector.md R59). Both writes
see the old values (00_scope.md R12). -/
def State.takeSample (pin : Level) (s : State) : State :=
  { s with prevSample := s.curSample, curSample := pin }

/-- Both sample registers are set to one level (42_block_control.md R64). -/
def State.holdSample (pin : Level) (s : State) : State :=
  { s with prevSample := pin, curSample := pin }

/-- The snapshot is written, all three registers in one step (10_state.md R22, 40_field_extractor.md R55). -/
def State.writeSnapshot (volt : BitVec 16) (soc : BitVec 8) (s : State) : State :=
  { s with voltRaw := volt, socRaw := soc, snapValid := true }

/-- The snapshot is cleared to the sentinel (42_block_control.md R64, 10_state.md R20). -/
def State.clearSnapshot (s : State) : State :=
  { s with voltRaw := 0x0000#16, socRaw := 0x00#8, snapValid := false }

/-- What the host has issued and the block has not taken becomes `ps` (log 1). -/
def State.setPending (ps : List PortInput) (s : State) : State :=
  { s with pending := ps }

/-- Power-on reset of the block with the input line at `pin`: all its registers are lost and take their reset values
(42_block_control.md R65, 60_exceptions.md R80, 70_reset_and_hazards.md R86). The host's stream is outside the block.
Log 13. -/
def State.powerOnReset (pin : Level) (s : State) : State :=
  (State.resetAt pin).setPending s.pending

/-- The oldest operation the host has issued and the state once it is taken (30_encoding.md R41); none when nothing is
issued. -/
def State.takeNext? (s : State) : Option (PortInput × State) :=
  match s.pending with
  | [] => none
  | p :: rest => some (p, s.setPending rest)

/-- A step in which the host issues nothing changes nothing (60_exceptions.md R81, row "no frame"; DEDUCED, log 2). -/
def State.idle (s : State) : Host.Outcome State Fault Refusal := .next s

/-- The block refuses a command word: a verdict of the model with the decoder's reason and no next state
(60_exceptions.md R73). -/
def refuse (e : DecodeError) : Host.Outcome State Fault Refusal :=
  match e with
  | .reservedBits => .refused .reservedBits
  | .unusedFieldNonzero => .refused .unusedFieldNonzero

end Sys2Proof.Machine
end

