-- ==== Sys2Proof/Machine/Control.lean ====
section
/-! DEFINITION. Block control (42_block_control.md). -/

namespace Sys2Proof.Machine

/-- NOP: no register is written (42_block_control.md R66). -/
def execNop (s : State) : Host.Outcome State Fault Refusal :=
  .next s

/-- INIT: both samples take the pin, the snapshot returns to the sentinel (42_block_control.md R64). -/
def execInit (pin : Level) (s : State) : Host.Outcome State Fault Refusal :=
  .next (s.holdSample pin).clearSnapshot

end Sys2Proof.Machine
end

