-- ==== Sys2Proof/Machine/EdgeDetector.lean ====
section
/-! DEFINITION. The edge detector's operation (41_edge_detector.md). -/

namespace Sys2Proof.Machine

/-- SAMPLE (41_edge_detector.md R59). -/
def execSample (pin : Level) (s : State) : Host.Outcome State Fault Refusal :=
  .next (s.takeSample pin)

end Sys2Proof.Machine
end

