-- ==== Sys2Proof/Machine/Operands.lean ====
section
/-! DEFINITION. Reading the payload operand, the fixed field table, the field primitive EXTRACT and the acceptance
predicate. -/

namespace Sys2Proof.Machine

/-- `MAX_LEN` (00_scope.md R7). -/
def maxLen : Nat := 8

/-- `MIN_LEN` (00_scope.md R8, 92_eei_decisions.md D5). -/
def minLen : Nat := 5

/-- `MemRead(k, n)`: payload bytes `k .. k+n-1` concatenated big-endian, byte `k` the most significant (00_scope.md R12,
20_memory.md R30). Only offsets 0 to 7 exist (20_memory.md R27), so a read comes with the proof that it stays inside. -/
def memRead (p : Payload) (k : Nat) : (n : Nat) → k + n ≤ 8 → BitVec (8 * n)
  | 0, _ => 0#0
  | n + 1, h => memRead p k n (Nat.le_of_succ_le h) ++ p[k + n]

/-- A field of the fixed table: its byte offset, its width in bytes and the divisor of its physical value
(00_scope.md R9). -/
structure FieldDesc where
  offset   : Nat
  width    : Nat
  divisor  : Nat
  inBuffer : offset + width ≤ 8
  deriving DecidableEq, Repr

/-- VOLT: bytes 0 and 1, units of 1/10 volt (00_scope.md R9). -/
def voltDesc : FieldDesc := ⟨0, 2, 10, by decide⟩

/-- SOC: byte 4, units of 1/2 percent (00_scope.md R9). -/
def socDesc : FieldDesc := ⟨4, 1, 2, by decide⟩

/-- `EXTRACT(P, off, w)` (40_field_extractor.md R56) for a field of the table, unsigned. -/
def extract (f : FieldDesc) (p : Payload) : BitVec (8 * f.width) :=
  memRead p f.offset f.width f.inBuffer

/-- `EXTRACT(P, 0, 2)`, VOLT (40_field_extractor.md R56). -/
def extractVolt (p : Payload) : BitVec 16 := extract voltDesc p

/-- `EXTRACT(P, 4, 1)`, SOC (40_field_extractor.md R56). -/
def extractSoc (p : Payload) : BitVec 8 := extract socDesc p

/-- The acceptance predicate (40_field_extractor.md R54): the identifier is `BMS_ID`, all 32 bits compared, and the
length is from `MIN_LEN` to `MAX_LEN`. -/
def accept (id : FrameId) (len : Byte) : Bool :=
  decide (id = Config.bmsId) && decide (minLen ≤ len.toNat) && decide (len.toNat ≤ maxLen)

end Sys2Proof.Machine
end

