-- ==== Sys2Proof/Machine/Extractor.lean ====
section
/-! DEFINITION. The field extractor's operation (40_field_extractor.md). -/

namespace Sys2Proof.Machine

/-- FRAME (40_field_extractor.md R55): an accepted frame writes the snapshot, any other frame writes nothing. A length
above 15, which no command word spells, is not accepted either (log 16). -/
def execFrame (len : Byte) (id : FrameId) (payload : Payload) (s : State) : Host.Outcome State Fault Refusal :=
  .next (if accept id len then s.writeSnapshot (extractVolt payload) (extractSoc payload) else s)

end Sys2Proof.Machine
end

