-- ==== Sys2Proof/Machine/Dispatch.lean ====
section
/-! DEFINITION. One arm per operation of spec/opcode_table.json, each a call of its meaning. -/

namespace Sys2Proof.Machine

/-- What an operation does to the state (30_encoding.md R41). -/
def exec (i : Instr) (s : State) : Host.Outcome State Fault Refusal :=
  match i with
  | .nop => Sys2Proof.Machine.execNop s
  | .sample pin => Sys2Proof.Machine.execSample pin s
  | .frame len id payload => Sys2Proof.Machine.execFrame len id payload s
  | .init pin => Sys2Proof.Machine.execInit pin s

end Sys2Proof.Machine
end

