-- ==== Sys2Proof/Machine/Step.lean ====
section
/-! DEFINITION. One step of the block, and the host's way of issuing one operation next. -/

namespace Sys2Proof.Machine

/-- One step (30_encoding.md R41): the block takes the oldest operation the host has issued, decodes it and runs it; a
word the decoder refuses is refused (60_exceptions.md R73); with nothing issued nothing changes (log 2). -/
def step (s : State) : Host.Outcome State Fault Refusal :=
  match s.takeNext? with
  | none => s.idle
  | some (p, t) =>
    match decode p with
    | .ok i => exec i t
    | .error e => refuse e

/-- `s` with the operation whose bits are `w` issued next, ahead of whatever else the host has issued. Log 3. -/
def State.withFetchWord (s : State) (nbits w : Nat) : State :=
  s.setPending (PortInput.ofBits nbits w :: s.pending)

end Sys2Proof.Machine
end

