-- ==== Sys2Proof/Machine/Assembly.lean ====
section
/-! DEFINITION. The assembly notation of 30_encoding.md R53 as terms: the four operations, the don't-care byte `_`, and the
pseudo-operations TICK with their expansions. Log 14. -/

namespace Sys2Proof.Machine

/-- A frame as the notation writes it: `id=<u32>, len=<0..15>, [b0, …, b7]`, a byte written `_` being none
(30_encoding.md R53). -/
structure AsmFrame where
  id    : FrameId
  len   : Nat
  bytes : Vector (Option Byte) 8
  deriving DecidableEq, Repr

/-- One line of the notation (30_encoding.md R53). -/
inductive AsmOp where
  | nop
  | sample (pin : Level)
  | init (pin : Level)
  | frame (f : AsmFrame)
  /-- `TICK <p>`: a control-loop tick with no frame available. -/
  | tick (pin : Level)
  /-- `TICK <p>, FRAME …`: a tick with a frame available. -/
  | tickFrame (pin : Level) (f : AsmFrame)
  deriving DecidableEq, Repr

/-- The level a token `<p>` names (30_encoding.md R53). -/
def levelOfToken (t : String) : Option Level :=
  if t = "1" ∨ t = "HIGH" then some .high
  else if t = "0" ∨ t = "LOW" then some .low
  else none

/-- The FRAME operation a written frame stands for. `_` encodes as 0x00 and may stand at or beyond `len` only; a length
above 15 or a `_` before `len` is no line of the notation (30_encoding.md R53; DEDUCED, log 14). -/
def AsmFrame.toInstr (f : AsmFrame) : Option Instr :=
  if f.len ≤ 15 ∧ ∀ k : Fin 8, k.val < f.len → f.bytes[k.val].isSome then
    some (.frame (BitVec.ofNat 8 f.len) f.id (Vector.ofFn fun k => f.bytes[k.val].getD 0x00#8))
  else none

/-- The operations a line expands to: `TICK` is one SAMPLE, then the frame if there is one (30_encoding.md R53,
70_reset_and_hazards.md R88). -/
def AsmOp.expand : AsmOp → Option (List Instr)
  | .nop => some [.nop]
  | .sample pin => some [.sample pin]
  | .init pin => some [.init pin]
  | .frame f => f.toInstr.map fun i => [i]
  | .tick pin => some [.sample pin]
  | .tickFrame pin f => f.toInstr.map fun i => [.sample pin, i]

end Sys2Proof.Machine
end

