-- ==== Sys2Proof/Machine/Flags.lean ====
section
/-! DEFINITION. The functions of the state a consumer reads: the edge, the output ports, the physical values. No operation
reads one of them (10_state.md R24). -/

namespace Sys2Proof.Machine

/-- `edge`: pressed exactly when the previous sample was HIGH and the latest is LOW (41_edge_detector.md R60). -/
def State.edge (s : State) : Edge :=
  if s.prevSample = .high ∧ s.curSample = .low then .pressed else .none

/-- The output ports (30_encoding.md R47). -/
structure OutputPorts where
  edge      : BitVec 1
  snapValid : BitVec 1
  voltRaw   : BitVec 16
  socRaw    : BitVec 8
  deriving DecidableEq, Repr

/-- What the output ports show, a pure function of the state (30_encoding.md R47). -/
def State.outputs (s : State) : OutputPorts where
  edge      := if s.edge = .pressed then 1#1 else 0#1
  snapValid := BitVec.ofBool s.snapValid
  voltRaw   := s.voltRaw
  socRaw    := s.socRaw

/-- The sentinel, "no valid reading yet" (10_state.md R20, R21). -/
def sentinel : Rat := -1

/-- The physical value of a raw field: the exact quotient by the field's divisor, or the sentinel (10_state.md R21,
00_scope.md R9, R13). -/
def physical (valid : Bool) (f : FieldDesc) (raw : Nat) : Rat :=
  if valid then (raw : Rat) / (f.divisor : Rat) else sentinel

/-- `voltage_V()` (10_state.md R21). -/
def State.voltageV (s : State) : Rat := physical s.snapValid voltDesc s.voltRaw.toNat

/-- `soc_pct()` (10_state.md R21). -/
def State.socPct (s : State) : Rat := physical s.snapValid socDesc s.socRaw.toNat

end Sys2Proof.Machine
end

