-- ==== Sys2Proof/Safety.lean ====
section
/-! DEFINITION. What claims about runs are stated in: runs of steps, good runs, operations run in order, a host that keeps
its duties, and the plain readings of an operation sequence (its levels, its falls, its latest snapshot operation). -/

namespace Sys2Proof.Machine

/-- `k` steps from `s`, ending at the first refusal. -/
def run (k : Nat) (s : State) : Host.Outcome State Fault Refusal := Host.Core.run Sys2Proof.core k s

/-- A run without a refused word (60_exceptions.md R73). The outcome `refused` of a run is its refusal mark (log 9). -/
def GoodRun (k : Nat) (s : State) : Prop := ∃ t, run k s = .next t

/-- The operations run one after the other (20_memory.md R37). -/
def execAll : List Instr → State → Host.Outcome State Fault Refusal
  | [], s => .next s
  | i :: ops, s =>
    match exec i s with
    | .next t => execAll ops t
    | .fault r => .fault r
    | .refused r => .refused r

/-- The operation is a SAMPLE. -/
def isSample : Instr → Bool
  | .nop => false
  | .sample _ => true
  | .frame _ _ _ => false
  | .init _ => false

/-- The operation is a FRAME. -/
def isFrame : Instr → Bool
  | .nop => false
  | .sample _ => false
  | .frame _ _ _ => true
  | .init _ => false

/-- The operation is an INIT. -/
def isInit : Instr → Bool
  | .nop => false
  | .sample _ => false
  | .frame _ _ _ => false
  | .init _ => true

/-- The levels of a sequence's SAMPLE operations, in order. -/
def sampledLevels : List Instr → List Level
  | [] => []
  | .nop :: ops => sampledLevels ops
  | .sample pin :: ops => pin :: sampledLevels ops
  | .frame _ _ _ :: ops => sampledLevels ops
  | .init _ :: ops => sampledLevels ops

/-- The number of places where a level is HIGH and the next one LOW (41_edge_detector.md R63). -/
def fallCount (levels : List Level) : Nat :=
  (List.range (levels.length - 1)).countP fun k => levels[k]? = some .high ∧ levels[k + 1]? = some .low

/-- The number of SAMPLE steps of a run of operations that end with `edge = pressed` (41_edge_detector.md R63,
70_reset_and_hazards.md R91). -/
def pressedSamples : List Instr → State → Nat
  | [], _ => 0
  | i :: ops, s =>
    match exec i s with
    | .next t => (if isSample i ∧ t.edge = .pressed then 1 else 0) + pressedSamples ops t
    | .fault _ => 0
    | .refused _ => 0

/-- The conditions of 40_field_extractor.md R54, written out from the rule. -/
def FrameAccepted (id : FrameId) (len : Nat) : Prop :=
  id = Config.bmsId ∧ 5 ≤ len ∧ len ≤ 8

/-- The operation determines the snapshot by itself: it is an INIT or an accepted FRAME (10_state.md R18 to R20, R22). -/
def setsSnapshot : Instr → Bool
  | .nop => false
  | .sample _ => false
  | .frame len id _ => decide (id = Config.bmsId ∧ 5 ≤ len.toNat ∧ len.toNat ≤ 8)
  | .init _ => true

/-- The last operation of a sequence that determines the snapshot, none if there is none. -/
def latestSnapshotOp (ops : List Instr) : Option Instr := ops.reverse.find? setsSnapshot

/-- The state invariant of 10_state.md R23: without a valid snapshot both raw registers are zero. -/
def State.SnapshotInv (s : State) : Prop :=
  s.snapValid = false → s.voltRaw = 0x0000#16 ∧ s.socRaw = 0x00#8

/-- The three snapshot registers together. -/
def State.snapshot (s : State) : BitVec 16 × BitVec 8 × Bool := (s.voltRaw, s.socRaw, s.snapValid)

/-- The 21 legal command words, as the count check of 95_test_vectors.md L2.1 lists them (30_encoding.md R51). -/
def legalWords : List CmdWord :=
  [0x0000#16, 0x0001#16, 0x0005#16, 0x0003#16, 0x0007#16] ++ (List.range 16).map fun n => BitVec.ofNat 16 (8 * n + 2)

/-- A host that keeps its duties on the order within a tick: a FRAME comes after the tick's SAMPLE, at most one per tick
(60_exceptions.md R81, R82; 70_reset_and_hazards.md R88). `open?` says whether the current tick may still have its FRAME.
No rule says whether a NOP between a tick's SAMPLE and its FRAME uses up that tick's chance of a FRAME (R66 and R81 make NOP a
poll that finds no frame): here it does not (DESIGN CHOICE, log 17). An INIT ends a tick (DEDUCED, log 10). The block itself
accepts any order (60_exceptions.md R75). -/
def keepsTickOrder : (open? : Bool) → List Instr → Bool
  | _, [] => true
  | o, .nop :: ops => keepsTickOrder o ops
  | _, .sample _ :: ops => keepsTickOrder true ops
  | o, .frame _ _ _ :: ops => o && keepsTickOrder false ops
  | _, .init _ :: ops => keepsTickOrder false ops

end Sys2Proof.Machine
end

