-- ==== Sys2Proof/Certificates/Slice0/Obligations.lean ====
section
/-! DEFINITION. The statements about the block, each with the rule of spec/ it rests on. -/

open Sys2Proof Sys2Proof.Machine

/-! ### Encoding and decoding (30_encoding.md) -/

/-- Decode and encode agree for every well-formed operation and every operand value (R43, R48, R49, R51). -/
def Obligations.DecodeEncodeRoundTrip : Prop :=
  ∀ i : Instr, i.WellFormed → decode (encode i) = .ok i

/-- A port input that decodes spells a well-formed operation, and encoding that operation gives back its command word; for
FRAME, which reads the operand ports, it gives back the whole port input (R42, R43, R49). -/
def Obligations.EncodeGivesBackDecodedInput : Prop :=
  ∀ (p : PortInput) (i : Instr), decode p = .ok i →
    i.WellFormed ∧ (encode i).cmd = p.cmd ∧ (isFrame i = true → encode i = p)

/-- The decoder's verdict on every command word, written on the word as a number, and the 21 legal words (R51). -/
def Obligations.DecoderVerdictOnEveryWord : Prop :=
  (∀ p : PortInput,
    let w := p.cmd.toNat
    let pin : Level := if w / 4 % 2 = 1 then .high else .low
    (128 ≤ w → decode p = .error .reservedBits) ∧
    (w < 128 → w % 4 = 0 → decode p = if w / 4 = 0 then .ok .nop else .error .unusedFieldNonzero) ∧
    (w < 128 → w % 4 = 1 → decode p = if w / 8 = 0 then .ok (.sample pin) else .error .unusedFieldNonzero) ∧
    (w < 128 → w % 4 = 2 → decode p =
      if w / 4 % 2 = 0 then .ok (.frame (BitVec.ofNat 8 (w / 8)) p.frameId (payloadOfPort p.framePayload))
      else .error .unusedFieldNonzero) ∧
    (w < 128 → w % 4 = 3 → decode p = if w / 8 = 0 then .ok (.init pin) else .error .unusedFieldNonzero)) ∧
  legalWords.length = 21 ∧ legalWords.Nodup ∧
  ∀ p : PortInput, (∃ i, decode p = .ok i) ↔ p.cmd ∈ legalWords

/-- The decoder gives an operation of a row of the opcode map exactly on the words that match the row's mask and match
(section 6). -/
def Obligations.DecoderFollowsOpcodeTable : Prop :=
  ∀ row ∈ opcodeTable, ∀ p : PortInput,
    p.cmd &&& row.mask = row.pattern ↔ ∃ i, decode p = .ok i ∧ i.mnemonic = row.mnemonic

/-- The operand ports: no decoding outside FRAME depends on them, no value on them is refused, and FRAME takes the
identifier and the payload bytes from them (R42). -/
def Obligations.OperandPortsDontCareOutsideFrame : Prop :=
  (∀ (c : CmdWord) (id id' : FrameId) (w w' : BitVec 64) (i : Instr),
    decode ⟨c, id, w⟩ = .ok i → isFrame i = false → decode ⟨c, id', w'⟩ = .ok i) ∧
  (∀ (c : CmdWord) (id id' : FrameId) (w w' : BitVec 64) (e : DecodeError),
    decode ⟨c, id, w⟩ = .error e → decode ⟨c, id', w'⟩ = .error e) ∧
  (∀ (p : PortInput) (len : Byte) (id : FrameId) (payload : Payload),
    decode p = .ok (.frame len id payload) →
      id = p.frameId ∧ ∀ (k : Nat) (hk : k < 8), payload[k] = p.framePayload.extractLsb' (8 * k) 8)

/-- The operands of a decoded word, read from the word as a number: `op = cmd[1:0]`, `pin = cmd[2]`, `len = zext_8(cmd[6:3])`,
`id = frame_id[31:0]` (R48). -/
def Obligations.OperandsAreWordFields : Prop :=
  ∀ p : PortInput,
    (decode p = .ok .nop → p.cmd.toNat % 4 = 0) ∧
    (∀ pin, decode p = .ok (.sample pin) → p.cmd.toNat % 4 = 1 ∧ (pin = .high ↔ p.cmd.toNat / 4 % 2 = 1)) ∧
    (∀ len id payload, decode p = .ok (.frame len id payload) →
      p.cmd.toNat % 4 = 2 ∧ len.toNat = p.cmd.toNat / 8 % 16 ∧ id = p.frameId) ∧
    (∀ pin, decode p = .ok (.init pin) → p.cmd.toNat % 4 = 3 ∧ (pin = .high ↔ p.cmd.toNat / 4 % 2 = 1))

/-- Payload byte `k` sits at port bits `[8k+7:8k]`, and the port is recovered from the bytes (R49). -/
def Obligations.PayloadPortPacking : Prop :=
  (∀ (w : BitVec 64) (k : Nat) (hk : k < 8), (payloadOfPort w)[k] = w.extractLsb' (8 * k) 8) ∧
  (∀ (payload : Payload) (k : Nat) (hk : k < 8), (portOfPayload payload).extractLsb' (8 * k) 8 = payload[k]) ∧
  ∀ w : BitVec 64, portOfPayload (payloadOfPort w) = w

/-- Words of 95_test_vectors.md L1.2 and L2.1, each written out from R43, decode to the operations they stand for. -/
def Obligations.WrittenOutWordsDecode : Prop :=
  decode ⟨0b0000000000000000#16, 0#32, 0#64⟩ = .ok .nop ∧
  decode ⟨0b0000000000000101#16, 0#32, 0#64⟩ = .ok (.sample .high) ∧
  decode ⟨0b0000000001000010#16, 7#32, 0x0000006400009001#64⟩ =
    .ok (.frame 8#8 7#32 #v[0x01#8, 0x90#8, 0x00#8, 0x00#8, 0x64#8, 0x00#8, 0x00#8, 0x00#8]) ∧
  decode ⟨0b0000000000000011#16, 0#32, 0#64⟩ = .ok (.init .low) ∧
  decode ⟨0b0000000000000110#16, 0#32, 0#64⟩ = .error .unusedFieldNonzero ∧
  decode ⟨0b0000000010000110#16, 0#32, 0#64⟩ = .error .reservedBits

/-- A FRAME line of the assembly notation (R53): which lines assemble, a length from 0 to 15 and `_` at or beyond the length only
(that a `_` before the length is no line is the model's reading, log 14); and what such a line stands for, its length, identifier
and bytes with `_` as 0x00, and the word `(n << 3) | 0x0002`. -/
def Obligations.AssembledFrameLine : Prop :=
  (∀ f : AsmFrame, f.toInstr.isSome = true ↔
    f.len ≤ 15 ∧ ∀ (k : Nat) (hk : k < 8), f.bytes[k] = none → f.len ≤ k) ∧
  ∀ (f : AsmFrame) (i : Instr), f.toInstr = some i →
    (∃ (len : Byte) (payload : Payload), i = .frame len f.id payload ∧ len.toNat = f.len ∧
      ∀ (k : Nat) (hk : k < 8), payload[k] = f.bytes[k].getD 0x00#8) ∧
    (encode i).cmd.toNat = 8 * f.len + 2 ∧ i.WellFormed

/-! ### Steps and runs (30_encoding.md R41, 60_exceptions.md R73, 20_memory.md R37) -/

/-- A step runs the decoded operation: it takes the oldest issued operation off the host's stream and is `exec` of it
(R41; the stream is the model's choice, log 1). -/
def Obligations.StepRunsDecodedOperation : Prop :=
  ∀ (s : State) (p : PortInput) (rest : List PortInput) (i : Instr),
    s.pending = p :: rest → decode p = .ok i → step s = exec i { s with pending := rest }

/-- With nothing issued, a step changes nothing (60_exceptions.md R81, row "no frame"; the model's reading, log 2). -/
def Obligations.StepWithNothingIssued : Prop :=
  ∀ s : State, s.pending = [] → step s = .next s

/-- A refused word: the step answers the decoder's reason and no next state, and the refusal is the run's verdict from then
on, so the run is never a good run (60_exceptions.md R73; the stream the word comes from is the model's choice, log 1, the mark
is the run's outcome, log 9). -/
def Obligations.RefusedWordEndsTheRun : Prop :=
  (∀ (s : State) (p : PortInput) (rest : List PortInput), s.pending = p :: rest →
    (decode p = .error .reservedBits → step s = .refused .reservedBits) ∧
    (decode p = .error .unusedFieldNonzero → step s = .refused .unusedFieldNonzero)) ∧
  (∀ (s : State) (r : Refusal), step s = .refused r → r = .reservedBits ∨ r = .unusedFieldNonzero) ∧
  (∀ (s : State) (k : Nat) (r : Refusal), run k s = .refused r →
    ∀ m : Nat, run (k + m) s = .refused r ∧ ¬ GoodRun (k + m) s)

/-- The host's stream runs in issue order: after as many steps as operations issued, the state is the one the operations give
one after the other, and every such run completes (20_memory.md R37, 30_encoding.md R41, R52; the stream and that a step takes its
oldest operation are the model's choice, log 1). -/
def Obligations.StreamRunsInIssueOrder : Prop :=
  ∀ (ops : List Instr) (rest : List PortInput) (s : State),
    (∀ i ∈ ops, i.WellFormed) → s.pending = ops.map encode ++ rest →
      ∃ t, execAll ops s = .next t ∧ run ops.length s = .next { t with pending := rest }

/-- Every operation is legal in every state (60_exceptions.md R75): it has its effect, and none is an exception (R68). -/
def Obligations.EveryOperationLegalInEveryState : Prop :=
  ∀ (i : Instr) (s : State), ∃ t, exec i s = .next t

/-- A step with an operation issued has a next state exactly when the word is one of the 21 legal words (60_exceptions.md R73, R75,
30_encoding.md R51; the stream is the model's choice, log 1). -/
def Obligations.StepCompletesExactlyOnLegalWords : Prop :=
  ∀ (s : State) (p : PortInput) (rest : List PortInput), s.pending = p :: rest →
    ((∃ t, step s = .next t) ↔ p.cmd ∈ legalWords)

/-- What the host's probes rely on: the word placed next is decoded and run by the very next step, on the state as it was
(the model's numbering of the ports, log 3). -/
def Obligations.PlacedWordRunsNext : Prop :=
  ∀ (s : State) (nbits w : Nat),
    (∀ i, decodeTableWord nbits w = some i → step (s.withFetchWord nbits w) = exec i s) ∧
    (decodeTableWord nbits w = none → ∃ r, step (s.withFetchWord nbits w) = .refused r)

/-! ### Each operation's own effect -/

/-- NOP completes and writes nothing (42_block_control.md R66). -/
def Obligations.NopCompletes : Prop :=
  ∀ s : State, exec .nop s = .next s

/-- SAMPLE completes: the old latest level becomes the previous one, the pin the latest; nothing else is written
(41_edge_detector.md R59). -/
def Obligations.SampleCompletes : Prop :=
  ∀ (pin : Level) (s : State), exec (.sample pin) s = .next { s with prevSample := s.curSample, curSample := pin }

/-- FRAME completes: an accepted frame writes VOLT, SOC and the valid bit, any other frame nothing (40_field_extractor.md
R54, R55, R56). -/
def Obligations.FrameCompletes : Prop :=
  ∀ (len : Byte) (id : FrameId) (payload : Payload) (s : State),
    (FrameAccepted id len.toNat → exec (.frame len id payload) s =
      .next { s with voltRaw := payload[0] ++ payload[1], socRaw := payload[4], snapValid := true }) ∧
    (¬ FrameAccepted id len.toNat → exec (.frame len id payload) s = .next s)

/-- INIT completes: both samples take the pin, the snapshot is cleared (42_block_control.md R64). -/
def Obligations.InitCompletes : Prop :=
  ∀ (pin : Level) (s : State), exec (.init pin) s =
    .next { s with prevSample := pin, curSample := pin, voltRaw := 0x0000#16, socRaw := 0x00#8, snapValid := false }

/-- What each of the four operations leaves unchanged: NOP and FRAME leave the edge detector, NOP and SAMPLE leave the snapshot, a
FRAME that is not accepted leaves every register, an accepted one never clears the valid bit; INIT leaves no register as it was
but writes all five (10_state.md R15, R16, R18, R19, R20; 40_field_extractor.md R58; 42_block_control.md R64). That no operation
touches the host's stream is the model's choice, log 1. -/
def Obligations.OperationFrames : Prop :=
  ∀ (i : Instr) (s t : State), exec i s = .next t →
    t.pending = s.pending ∧
    (i = .nop ∨ isFrame i = true → t.prevSample = s.prevSample ∧ t.curSample = s.curSample) ∧
    (i = .nop ∨ isSample i = true → t.snapshot = s.snapshot) ∧
    (isFrame i = true → s.snapValid = true → t.snapValid = true) ∧
    (∀ len id payload, i = .frame len id payload → ¬ FrameAccepted id len.toNat → t = s) ∧
    (∀ pin, i = .init pin → t.prevSample = pin ∧ t.curSample = pin ∧ t.snapshot = (0x0000#16, 0x00#8, false))

/-- NOP from its word to its effect: the word 0x0000 writes nothing, every other word with `op = 00` is refused
(42_block_control.md R66). -/
def Obligations.NopWordEffect : Prop :=
  (∀ (p : PortInput) (s : State), p.cmd = 0x0000#16 → ∃ i, decode p = .ok i ∧ exec i s = .next s) ∧
  ∀ p : PortInput, p.cmd.toNat % 4 = 0 → p.cmd ≠ 0x0000#16 → ∃ e, decode p = .error e

/-- SAMPLE from its word to its effect and its edge (41_edge_detector.md R59): mask 0xFFFB, match 0x0001; the four pairs of old
level and pin; every other word with `op = 01` is refused. -/
def Obligations.SampleWordEffect : Prop :=
  (∀ (p : PortInput) (s : State), p.cmd &&& 0xFFFB#16 = 0x0001#16 → ∃ i, decode p = .ok i ∧
    exec i s = .next
      { s with
        prevSample := s.curSample
        curSample := if p.cmd.toNat / 4 % 2 = 1 then .high else .low }) ∧
  (∀ p : PortInput, p.cmd.toNat % 4 = 1 → p.cmd &&& 0xFFFB#16 ≠ 0x0001#16 → ∃ e, decode p = .error e) ∧
  ∀ (s : State) (pin : Level), ∃ t, exec (.sample pin) s = .next t ∧
    (t.edge = .pressed ↔ s.curSample = .high ∧ pin = .low)

/-- FRAME from its word and operand ports to its effect (40_field_extractor.md R54, R55): mask 0xFF87, match 0x0002, the length
in `cmd[6:3]`, the bytes at their port bits; every other word with `op = 10` is refused. -/
def Obligations.FrameWordEffect : Prop :=
  (∀ (p : PortInput) (s : State), p.cmd &&& 0xFF87#16 = 0x0002#16 → ∃ i, decode p = .ok i ∧
    (p.frameId = Config.bmsId ∧ 5 ≤ p.cmd.toNat / 8 % 16 ∧ p.cmd.toNat / 8 % 16 ≤ 8 → exec i s = .next
      { s with
        voltRaw := p.framePayload.extractLsb' 0 8 ++ p.framePayload.extractLsb' 8 8
        socRaw := p.framePayload.extractLsb' 32 8
        snapValid := true }) ∧
    (¬ (p.frameId = Config.bmsId ∧ 5 ≤ p.cmd.toNat / 8 % 16 ∧ p.cmd.toNat / 8 % 16 ≤ 8) → exec i s = .next s)) ∧
  ∀ p : PortInput, p.cmd.toNat % 4 = 2 → p.cmd &&& 0xFF87#16 ≠ 0x0002#16 → ∃ e, decode p = .error e

/-- INIT from its word to its effect (42_block_control.md R64): mask 0xFFFB, match 0x0003; afterwards no edge and the sentinel;
two INITs in a row equal the second alone; every other word with `op = 11` is refused. -/
def Obligations.InitWordEffect : Prop :=
  (∀ (p : PortInput) (s : State), p.cmd &&& 0xFFFB#16 = 0x0003#16 →
    let pin : Level := if p.cmd.toNat / 4 % 2 = 1 then .high else .low
    ∃ i, decode p = .ok i ∧ exec i s = .next
      { s with
        prevSample := pin, curSample := pin
        voltRaw := 0x0000#16, socRaw := 0x00#8, snapValid := false }) ∧
  (∀ p : PortInput, p.cmd.toNat % 4 = 3 → p.cmd &&& 0xFFFB#16 ≠ 0x0003#16 → ∃ e, decode p = .error e) ∧
  (∀ (s : State) (pin : Level), ∃ t, exec (.init pin) s = .next t ∧
    t.edge = .none ∧ t.voltageV = -1 ∧ t.socPct = -1) ∧
  ∀ (s : State) (a b : Level), ∃ t, exec (.init a) s = .next t ∧ exec (.init b) t = exec (.init b) s

/-! ### The field extractor (40_field_extractor.md, 20_memory.md) -/

/-- The acceptance predicate is the three conditions (R54). -/
def Obligations.AcceptanceConditions : Prop :=
  ∀ (id : FrameId) (len : Byte), accept id len = true ↔ (id = Config.bmsId ∧ 5 ≤ len.toNat ∧ len.toNat ≤ 8)

/-- VOLT is big-endian (20_memory.md R30): the shifted form and the number it stands for. -/
def Obligations.VoltIsBigEndian : Prop :=
  ∀ payload : Payload,
    extractVolt payload = (payload[0].zeroExtend 16 <<< 8) ||| payload[1].zeroExtend 16 ∧
    (extractVolt payload).toNat = 256 * payload[0].toNat + payload[1].toNat

/-- The two instances of the field primitive (R56): VOLT from offsets 0 and 1, SOC from offset 4, the raw bytes unsigned and
unscaled, filling the ranges 0 .. 65535 and 0 .. 255. -/
def Obligations.FieldPrimitiveInstances : Prop :=
  (∀ payload : Payload,
    extract voltDesc payload = (payload[0].zeroExtend 16 <<< 8) ||| payload[1].zeroExtend 16 ∧
    extract socDesc payload = payload[4] ∧
    (extractVolt payload).toNat ≤ 65535 ∧ (extractSoc payload).toNat ≤ 255) ∧
  ∀ (v : Nat) (c : Nat), v ≤ 65535 → c ≤ 255 →
    ∃ payload : Payload, (extractVolt payload).toNat = v ∧ (extractSoc payload).toNat = c

/-- The same frame twice is the same as once, and an accepted frame leaves the same snapshot from every state (R57). -/
def Obligations.FrameIdempotentWithoutHistory : Prop :=
  (∀ (len : Byte) (id : FrameId) (payload : Payload) (s : State),
    ∃ t, exec (.frame len id payload) s = .next t ∧ exec (.frame len id payload) t = .next t) ∧
  ∀ (len : Byte) (id : FrameId) (payload : Payload) (s s' : State), FrameAccepted id len.toNat →
    ∃ t t', exec (.frame len id payload) s = .next t ∧ exec (.frame len id payload) s' = .next t' ∧
      t.snapshot = t'.snapshot

/-- A frame that is not accepted writes no register and changes no output port, whichever of the three conditions it fails
(R58). -/
def Obligations.RejectedFrameChangesNothing : Prop :=
  ∀ (len : Byte) (id : FrameId) (payload : Payload) (s : State),
    id ≠ Config.bmsId ∨ len.toNat < 5 ∨ 8 < len.toNat →
      ∃ t, exec (.frame len id payload) s = .next t ∧ t = s ∧ t.outputs = s.outputs

/-- The malformed inputs, each ignored (60_exceptions.md R69): a foreign identifier, a length below 5, a length from 9 to 15, a
zero length. -/
def Obligations.MalformedFramesIgnored : Prop :=
  ∀ (payload : Payload) (s : State),
    (∀ (len : Byte) (id : FrameId), id ≠ Config.bmsId → exec (.frame len id payload) s = .next s) ∧
    (∀ len : Byte, len.toNat < 5 → exec (.frame len Config.bmsId payload) s = .next s) ∧
    (∀ len : Byte, 9 ≤ len.toNat → len.toNat ≤ 15 → exec (.frame len Config.bmsId payload) s = .next s) ∧
    (∀ id : FrameId, exec (.frame 0#8 id payload) s = .next s)

/-- Bytes at offsets from `len` on are never used (20_memory.md R28): two payloads that agree below `len` give the same
result. -/
def Obligations.BytesBeyondLengthIgnored : Prop :=
  ∀ (len : Byte) (id : FrameId) (p q : Payload) (s : State),
    (∀ (k : Nat) (hk : k < 8), k < len.toNat → p[k] = q[k]) →
      exec (.frame len id p) s = exec (.frame len id q) s

/-- The payload offset map (20_memory.md R32, R33): offset 0 is VOLT bits 15..8, offset 1 VOLT bits 7..0, offset 4 SOC, and no
other offset affects the result. -/
def Obligations.PayloadOffsetMap : Prop :=
  (∀ (len : Byte) (id : FrameId) (p : Payload) (s : State), FrameAccepted id len.toNat →
    ∃ t, exec (.frame len id p) s = .next t ∧
      t.voltRaw.extractLsb' 8 8 = p[0] ∧ t.voltRaw.extractLsb' 0 8 = p[1] ∧ t.socRaw = p[4]) ∧
  ∀ (len : Byte) (id : FrameId) (p q : Payload) (s : State), p[0] = q[0] → p[1] = q[1] → p[4] = q[4] →
    exec (.frame len id p) s = exec (.frame len id q) s

/-- The snapshot is single-writer and written whole: only INIT and an accepted FRAME change it, and each writes all three of its
registers in its one step (10_state.md R22). -/
def Obligations.SnapshotSingleWriter : Prop :=
  (∀ (i : Instr) (s t : State), exec i s = .next t → t.snapshot ≠ s.snapshot →
    isInit i = true ∨ ∃ len id payload, i = .frame len id payload ∧ FrameAccepted id len.toNat) ∧
  (∀ (len : Byte) (id : FrameId) (payload : Payload) (s : State), FrameAccepted id len.toNat →
    ∃ t, exec (.frame len id payload) s = .next t ∧ t.snapshot = (payload[0] ++ payload[1], payload[4], true)) ∧
  ∀ (pin : Level) (s : State), ∃ t, exec (.init pin) s = .next t ∧ t.snapshot = (0x0000#16, 0x00#8, false)

/-- The snapshot registers hold the last accepted frame since the last INIT, or are clear if there has been none; with neither
in the run they are as they were (10_state.md R18, R19, R20). -/
def Obligations.SnapshotHoldsLatestFrame : Prop :=
  ∀ (ops : List Instr) (s : State), ∃ t, execAll ops s = .next t ∧
    t.snapshot =
      match latestSnapshotOp ops with
      | none => s.snapshot
      | some (.frame _ _ payload) => (payload[0] ++ payload[1], payload[4], true)
      | some _ => (0x0000#16, 0x00#8, false)

/-- The state invariant is kept by every step, whatever the host issues (10_state.md R23; the stream is the model's choice, log 1). -/
def Obligations.StepKeepsSnapshotInv : Prop :=
  ∀ s t : State, s.SnapshotInv → step s = .next t → t.SnapshotInv

/-- The state invariant holds after reset, with the input line at either level (10_state.md R23). -/
def Obligations.ResetHasSnapshotInv : Prop :=
  State.reset.SnapshotInv ∧ ∀ pin : Level, (State.resetAt pin).SnapshotInv

/-- The state invariant holds throughout every run from reset, at either level and with any stream issued (10_state.md R23;
the stream is the model's choice, log 1, and is left free here). -/
def Obligations.RunsKeepSnapshotInv : Prop :=
  ∀ (pin : Level) (ps : List PortInput) (k : Nat) (t : State),
    run k { State.resetAt pin with pending := ps } = .next t → t.SnapshotInv

/-- The physical values: the exact quotients of a valid snapshot, within their ranges, and the sentinel otherwise; the sentinel
is never a decoded value (10_state.md R21, 00_scope.md R9, R13). -/
def Obligations.PhysicalValues : Prop :=
  ∀ s : State,
    (s.snapValid = true →
      s.voltageV = (s.voltRaw.toNat : Rat) / 10 ∧ s.socPct = (s.socRaw.toNat : Rat) / 2 ∧
      0 ≤ s.voltageV ∧ s.voltageV ≤ 65535 / 10 ∧ 0 ≤ s.socPct ∧ s.socPct ≤ 255 / 2) ∧
    (s.snapValid = false → s.voltageV = -1 ∧ s.socPct = -1) ∧
    (s.voltageV = -1 ↔ s.snapValid = false) ∧ (s.socPct = -1 ↔ s.snapValid = false)

/-! ### The edge detector (41_edge_detector.md) and the output ports -/

/-- The edge output (R60): pressed exactly when HIGH was followed by LOW, on the port as 1, changed by SAMPLE and INIT only. -/
def Obligations.EdgeOutputRule : Prop :=
  (∀ s : State,
    (s.edge = .pressed ↔ s.prevSample = .high ∧ s.curSample = .low) ∧
    (s.edge ≠ .pressed → s.edge = .none) ∧
    (s.outputs.edge = 1#1 ↔ s.edge = .pressed)) ∧
  ∀ (i : Instr) (s t : State), exec i s = .next t → t.edge ≠ s.edge → isSample i = true ∨ isInit i = true

/-- The output ports are pure functions of the registers (30_encoding.md R47). -/
def Obligations.OutputPortValues : Prop :=
  ∀ s : State,
    (s.outputs.edge = if s.prevSample = .high ∧ s.curSample = .low then 1#1 else 0#1) ∧
    (s.outputs.snapValid = if s.snapValid = true then 1#1 else 0#1) ∧
    s.outputs.voltRaw = s.voltRaw ∧ s.outputs.socRaw = s.socRaw

/-- The edge is a level: it keeps its value through any run of NOP and FRAME operations (70_reset_and_hazards.md R91). -/
def Obligations.EdgeHeldThroughNopAndFrame : Prop :=
  ∀ (ops : List Instr) (s : State), (∀ i ∈ ops, i = .nop ∨ isFrame i = true) →
    ∃ t, execAll ops s = .next t ∧ t.edge = s.edge ∧ t.outputs.edge = s.outputs.edge

/-- The edge count law (R63): after INIT with level `s0`, the SAMPLE steps that end with `edge = pressed` are as many as the
falls in the sequence of `s0` and the sampled levels; NOP and FRAME steps between do not change the count. -/
def Obligations.EdgeCountLaw : Prop :=
  ∀ (s0 : Level) (ops : List Instr) (s : State), (∀ i ∈ ops, isInit i = false) →
    ∃ u t, exec (.init s0) s = .next u ∧ execAll ops u = .next t ∧
      pressedSamples ops u = fallCount (s0 :: sampledLevels ops)

/-- The two sub-blocks are independent (R62): SAMPLE leaves the snapshot and its result on the edge detector does not depend on
it, FRAME dually, and any interleaving of SAMPLE and FRAME gives the state of the operations grouped by sub-block. -/
def Obligations.SubBlocksInterleaveFreely : Prop :=
  (∀ (pin : Level) (s s' : State), s.prevSample = s'.prevSample → s.curSample = s'.curSample →
    ∃ t t', exec (.sample pin) s = .next t ∧ exec (.sample pin) s' = .next t' ∧
      t.snapshot = s.snapshot ∧ t.prevSample = t'.prevSample ∧ t.curSample = t'.curSample) ∧
  (∀ (len : Byte) (id : FrameId) (payload : Payload) (s s' : State), s.snapshot = s'.snapshot →
    ∃ t t', exec (.frame len id payload) s = .next t ∧ exec (.frame len id payload) s' = .next t' ∧
      t.prevSample = s.prevSample ∧ t.curSample = s.curSample ∧ t.snapshot = t'.snapshot) ∧
  ∀ (ops : List Instr) (s : State), (∀ i ∈ ops, isSample i = true ∨ isFrame i = true) →
    ∃ t, execAll ops s = .next t ∧
      execAll (ops.filter isSample ++ ops.filter isFrame) s = .next t ∧
      execAll (ops.filter isFrame ++ ops.filter isSample) s = .next t

/-- Without an INIT, the two sample registers hold the last two levels of the sequence of their old contents and the sampled
levels (10_state.md R15, R16). -/
def Obligations.SampleRegistersHoldLastTwoLevels : Prop :=
  ∀ (ops : List Instr) (s : State), (∀ i ∈ ops, isInit i = false) →
    ∃ t, execAll ops s = .next t ∧
      [t.prevSample, t.curSample] =
        (s.prevSample :: s.curSample :: sampledLevels ops).drop (sampledLevels ops).length

/-- No operation reads the valid bit, and none reads the previous sample, so none reads the edge: changing either changes the
result only where it is carried over (10_state.md R24, 41_edge_detector.md R59). -/
def Obligations.NoOperationReadsAFlag : Prop :=
  ∀ (i : Instr) (s : State), ∃ t, exec i s = .next t ∧
    (∀ b : Bool, exec i { s with snapValid := b } =
      .next { t with snapValid := if setsSnapshot i = true then t.snapValid else b }) ∧
    (∀ l : Level, exec i { s with prevSample := l } =
      .next { t with prevSample := if isSample i = true ∨ isInit i = true then t.prevSample else l })

/-- After INIT with level `a`, a first SAMPLE with level `b` reports pressed exactly for HIGH then LOW: no spurious edge when the
level passed to INIT is the real one, a false one when it is not (70_reset_and_hazards.md R93, 42_block_control.md R64). -/
def Obligations.FirstSampleAfterInit : Prop :=
  ∀ (s : State) (a b : Level), ∃ t u, exec (.init a) s = .next t ∧ exec (.sample b) t = .next u ∧
    t.edge = .none ∧ (u.edge = .pressed ↔ a = .high ∧ b = .low)

/-! ### Reset and the tick (70_reset_and_hazards.md) -/

/-- Power-on reset has exactly the effect of INIT with the level at reset (42_block_control.md R65); both leave the host's stream, the
model's own field, alone (log 1, log 13). -/
def Obligations.ResetActsAsInit : Prop :=
  ∀ (pin : Level) (s : State), exec (.init pin) s = .next (s.powerOnReset pin)

/-- What reset leaves, at either level of the input line, and that it is the state INIT with that level gives from every state (R86,
R87), but for the host's stream, the model's own field (log 1), which is compared as it stands. The level itself is open (log 5). -/
def Obligations.ResetValues : Prop :=
  (∀ pin : Level,
    let r := State.resetAt pin
    r.prevSample = pin ∧ r.curSample = pin ∧ r.voltRaw = 0x0000#16 ∧ r.socRaw = 0x00#8 ∧ r.snapValid = false ∧
    r.edge = .none ∧ r.voltageV = -1 ∧ r.socPct = -1 ∧
    ∀ s : State, exec (.init pin) s = .next { r with pending := s.pending }) ∧
  State.reset = State.resetAt Config.pinAtReset

/-- A tick with a frame: what a consumer reads after its SAMPLE and before its FRAME is the snapshot from before the tick, and the
edge it reads is the one the whole tick ends with (20_memory.md R38, 70_reset_and_hazards.md R88, R94). -/
def Obligations.TickShowsPreviousSnapshot : Prop :=
  ∀ (pin : Level) (f : AsmFrame) (ops : List Instr) (s : State), (AsmOp.tickFrame pin f).expand = some ops →
    ∃ u t, exec (.sample pin) s = .next u ∧ execAll ops s = .next t ∧
      u.snapshot = s.snapshot ∧ u.voltageV = s.voltageV ∧ u.socPct = s.socPct ∧ u.edge = t.edge

/-- What the two TICK lines expand to, and that a host that issues ticks keeps its duties on the order within a tick and issues only
words that decode (30_encoding.md R53, 60_exceptions.md R81, R82, 70_reset_and_hazards.md R88). A `TICK` with a frame that is no
line of the notation expands to nothing (log 14). -/
def Obligations.TicksKeepHostOrder : Prop :=
  (∀ pin : Level, (AsmOp.tick pin).expand = some [.sample pin]) ∧
  (∀ (pin : Level) (f : AsmFrame) (i : Instr), f.toInstr = some i →
    (AsmOp.tickFrame pin f).expand = some [.sample pin, i]) ∧
  (∀ (pin : Level) (f : AsmFrame), f.toInstr = none → (AsmOp.tickFrame pin f).expand = none) ∧
  ∀ (ticks : List AsmOp) (opss : List (List Instr)) (o : Bool),
    (∀ a ∈ ticks, (∃ pin, a = .tick pin) ∨ ∃ pin f, a = .tickFrame pin f) →
    ticks.map AsmOp.expand = opss.map some →
      keepsTickOrder o opss.flatten = true ∧ ∀ i ∈ opss.flatten, i.WellFormed

/-- What the lines of the assembly notation that name one operation expand to, and the levels their tokens name (30_encoding.md
R53). -/
def Obligations.PlainAssemblyLines : Prop :=
  AsmOp.nop.expand = some [.nop] ∧
  (∀ pin : Level, (AsmOp.sample pin).expand = some [.sample pin] ∧ (AsmOp.init pin).expand = some [.init pin]) ∧
  (∀ (f : AsmFrame) (i : Instr), f.toInstr = some i → (AsmOp.frame f).expand = some [i]) ∧
  ∀ t : String,
    (levelOfToken t = some .high ↔ t = "1" ∨ t = "HIGH") ∧ (levelOfToken t = some .low ↔ t = "0" ∨ t = "LOW")
end

