-- ==== Sys2Proof/Laws/Assembly.lean ====
section
/-! SUPPORT. What a written frame can stand for, said once. -/

namespace Sys2Proof.Machine

/-- Both answers of a written frame (30_encoding.md R53): the one FRAME it stands for, or none. -/
theorem AsmFrame.toInstr_cases (f : AsmFrame) :
    ((f.len ≤ 15 ∧ ∀ k : Fin 8, k.val < f.len → f.bytes[k.val].isSome) ∧
      f.toInstr = some (.frame (BitVec.ofNat 8 f.len) f.id (Vector.ofFn fun k => f.bytes[k.val].getD 0x00#8))) ∨
    (¬ (f.len ≤ 15 ∧ ∀ k : Fin 8, k.val < f.len → f.bytes[k.val].isSome) ∧ f.toInstr = none) := by
  by_cases h : f.len ≤ 15 ∧ ∀ k : Fin 8, k.val < f.len → f.bytes[k.val].isSome
  · exact .inl ⟨h, if_pos h⟩
  · exact .inr ⟨h, if_neg h⟩

end Sys2Proof.Machine
end

