-- ==== Sys2Proof/Laws/Decode.lean ====
section
/-! SUPPORT. The command word's fields against the packed word, and the decoder case by case. -/

namespace Sys2Proof

@[simp] theorem Level.ofBit_toBit (l : Level) : Level.ofBit l.toBit = l := by
  cases l <;> rfl

@[simp] theorem Level.toBit_ofBit (b : BitVec 1) : (Level.ofBit b).toBit = b := by
  revert b; decide

@[simp] theorem opField_cmdOfFields (len : BitVec 4) (pin : BitVec 1) (op : BitVec 2) :
    opField (cmdOfFields len pin op) = op := by
  revert len pin op; decide

@[simp] theorem pinField_cmdOfFields (len : BitVec 4) (pin : BitVec 1) (op : BitVec 2) :
    pinField (cmdOfFields len pin op) = pin := by
  revert len pin op; decide

@[simp] theorem lenField_cmdOfFields (len : BitVec 4) (pin : BitVec 1) (op : BitVec 2) :
    lenField (cmdOfFields len pin op) = len := by
  revert len pin op; decide

@[simp] theorem rsvField_cmdOfFields (len : BitVec 4) (pin : BitVec 1) (op : BitVec 2) :
    rsvField (cmdOfFields len pin op) = 0#9 := by
  revert len pin op; decide

/-- A command word is its four fields (30_encoding.md R43). -/
theorem cmd_eq_append_fields (cmd : CmdWord) :
    cmd = rsvField cmd ++ lenField cmd ++ pinField cmd ++ opField cmd := by
  apply BitVec.eq_of_getLsbD_eq
  intro k hk
  show cmd.getLsbD k =
    BitVec.getLsbD (w := 9 + 4 + 1 + 2) (rsvField cmd ++ lenField cmd ++ pinField cmd ++ opField cmd) k
  simp only [rsvField, lenField, pinField, opField, BitVec.getLsbD_append, BitVec.getLsbD_extractLsb']
  interval_cases k <;> simp

/-- A command word with its reserved bits zero is the packing of its other fields. -/
theorem cmdOfFields_fields {cmd : CmdWord} (h : rsvField cmd = 0#9) :
    cmdOfFields (lenField cmd) (pinField cmd) (opField cmd) = cmd := by
  conv_rhs => rw [cmd_eq_append_fields cmd, h]
  rfl

/-! ### Masks -/

theorem append_eq_append_iff {m n : Nat} {a c : BitVec m} {b d : BitVec n} : a ++ b = c ++ d ↔ a = c ∧ b = d := by
  constructor
  · intro h
    constructor
    · apply BitVec.eq_of_getLsbD_eq
      intro k hk
      have := congrArg (fun v => BitVec.getLsbD v (n + k)) h
      simpa [BitVec.getLsbD_append] using this
    · apply BitVec.eq_of_getLsbD_eq
      intro k hk
      have := congrArg (fun v => BitVec.getLsbD v k) h
      simpa [BitVec.getLsbD_append, hk] using this
  · rintro ⟨rfl, rfl⟩; rfl

theorem append_and_append {m n : Nat} (a c : BitVec m) (b d : BitVec n) :
    (a ++ b) &&& (c ++ d) = (a &&& c) ++ (b &&& d) := by
  apply BitVec.eq_of_getLsbD_eq
  intro k hk
  simp only [BitVec.getLsbD_and, BitVec.getLsbD_append]
  split <;> rfl

/-- A masked comparison of a command word is one of each field (30_encoding.md section 6). -/
theorem cmd_masked_iff (cmd : CmdWord) (mr kr : BitVec 9) (ml kl : BitVec 4) (mp kp : BitVec 1) (mo ko : BitVec 2) :
    cmd &&& (mr ++ ml ++ mp ++ mo) = kr ++ kl ++ kp ++ ko ↔
      rsvField cmd &&& mr = kr ∧ lenField cmd &&& ml = kl ∧ pinField cmd &&& mp = kp ∧ opField cmd &&& mo = ko := by
  conv_lhs => rw [cmd_eq_append_fields cmd]
  show HAnd.hAnd (α := BitVec (9 + 4 + 1 + 2)) (β := BitVec (9 + 4 + 1 + 2)) (_ ++ _) (_ ++ _) = (_ ++ _) ↔ _
  rw [append_and_append, append_and_append, append_and_append, append_eq_append_iff, append_eq_append_iff,
    append_eq_append_iff, and_assoc, and_assoc]

/-- The command word as a number, from its fields. -/
theorem cmd_toNat (cmd : CmdWord) :
    cmd.toNat = 128 * (rsvField cmd).toNat + 8 * (lenField cmd).toNat + 4 * (pinField cmd).toNat +
      (opField cmd).toNat := by
  simp only [rsvField, lenField, pinField, opField, BitVec.extractLsb'_toNat, Nat.shiftRight_eq_div_pow]
  have := cmd.isLt
  omega

/-- Byte `k` of the payload port. -/
@[simp] theorem payloadOfPort_getElem (w : BitVec 64) (k : Nat) (hk : k < 8) :
    (payloadOfPort w)[k] = w.extractLsb' (8 * k) 8 := by
  simp [payloadOfPort]

/-- Every way the decoder answers (30_encoding.md R51). -/
theorem decode_cases (p : PortInput) :
    (rsvField p.cmd ≠ 0#9 ∧ decode p = .error .reservedBits) ∨
    (rsvField p.cmd = 0#9 ∧ opField p.cmd = 0b00#2 ∧ (pinField p.cmd ≠ 0#1 ∨ lenField p.cmd ≠ 0#4) ∧
      decode p = .error .unusedFieldNonzero) ∨
    (rsvField p.cmd = 0#9 ∧ opField p.cmd = 0b00#2 ∧ pinField p.cmd = 0#1 ∧ lenField p.cmd = 0#4 ∧
      decode p = .ok .nop) ∨
    (rsvField p.cmd = 0#9 ∧ opField p.cmd = 0b01#2 ∧ lenField p.cmd ≠ 0#4 ∧ decode p = .error .unusedFieldNonzero) ∨
    (rsvField p.cmd = 0#9 ∧ opField p.cmd = 0b01#2 ∧ lenField p.cmd = 0#4 ∧
      decode p = .ok (.sample (Level.ofBit (pinField p.cmd)))) ∨
    (rsvField p.cmd = 0#9 ∧ opField p.cmd = 0b10#2 ∧ pinField p.cmd ≠ 0#1 ∧ decode p = .error .unusedFieldNonzero) ∨
    (rsvField p.cmd = 0#9 ∧ opField p.cmd = 0b10#2 ∧ pinField p.cmd = 0#1 ∧
      decode p = .ok (.frame ((lenField p.cmd).zeroExtend 8) p.frameId (payloadOfPort p.framePayload))) ∨
    (rsvField p.cmd = 0#9 ∧ opField p.cmd = 0b11#2 ∧ lenField p.cmd ≠ 0#4 ∧ decode p = .error .unusedFieldNonzero) ∨
    (rsvField p.cmd = 0#9 ∧ opField p.cmd = 0b11#2 ∧ lenField p.cmd = 0#4 ∧
      decode p = .ok (.init (Level.ofBit (pinField p.cmd)))) := by
  have hop : ∀ b : BitVec 2, b = 0b00#2 ∨ b = 0b01#2 ∨ b = 0b10#2 ∨ b = 0b11#2 := by decide
  by_cases hr : rsvField p.cmd = 0#9
  · rcases hop (opField p.cmd) with h | h | h | h
    · by_cases h1 : pinField p.cmd = 0#1 <;> by_cases h2 : lenField p.cmd = 0#4 <;> simp [decode, hr, h, h1, h2]
    · by_cases h2 : lenField p.cmd = 0#4 <;> simp [decode, hr, h, h2]
    · by_cases h1 : pinField p.cmd = 0#1 <;> simp [decode, hr, h, h1]
    · by_cases h2 : lenField p.cmd = 0#4 <;> simp [decode, hr, h, h2]
  · simp [decode, hr]

end Sys2Proof
end

