-- ==== Sys2Proof/Laws/Operands.lean ====
section
/-! SUPPORT. What reading the payload gives, field by field, and when a frame is accepted. -/

namespace Sys2Proof.Machine

theorem memRead_zero (p : Payload) (k : Nat) (h : k + 0 ≤ 8) : memRead p k 0 h = 0#0 := rfl

/-- A read of `n + 1` bytes is the read of the first `n` bytes followed, less significant, by the last. -/
theorem memRead_succ (p : Payload) (k n : Nat) (h : k + (n + 1) ≤ 8) :
    memRead p k (n + 1) h = memRead p k n (Nat.le_of_succ_le h) ++ p[k + n] := rfl

/-- A read uses no byte outside `k .. k+n-1` (20_memory.md R28). -/
theorem memRead_congr {p q : Payload} {k : Nat} :
    ∀ {n : Nat} (h : k + n ≤ 8), (∀ (j : Nat) (hj : j < 8), k ≤ j → j < k + n → p[j] = q[j]) →
      memRead p k n h = memRead q k n h
  | 0, _, _ => rfl
  | n + 1, h, hb => by
    rw [memRead_succ, memRead_succ, memRead_congr _ fun j hj h1 h2 => hb j hj h1 (by omega),
      hb (k + n) (by omega) (by omega) (by omega)]

/-- The number a big-endian read stands for: each further byte is one place less significant. -/
theorem memRead_succ_toNat (p : Payload) (k n : Nat) (h : k + (n + 1) ≤ 8) :
    (memRead p k (n + 1) h).toNat = (memRead p k n (Nat.le_of_succ_le h)).toNat * 256 + p[k + n].toNat := by
  show BitVec.toNat (w := 8 * n + 8) (memRead p k n (Nat.le_of_succ_le h) ++ p[k + n]) = _
  rw [BitVec.toNat_append, Nat.shiftLeft_eq, Nat.mul_comm _ (2 ^ 8), ← Nat.two_pow_add_eq_or_of_lt p[k + n].isLt]

/-- VOLT as a number, byte 0 the more significant (20_memory.md R30). -/
theorem extractVolt_toNat (p : Payload) : (extractVolt p).toNat = p[0].toNat * 256 + p[1].toNat := by
  show (memRead p 0 2 (by decide : 0 + 2 ≤ 8)).toNat = _
  simp only [memRead_succ_toNat, memRead_zero]
  simp

/-- SOC is `P[4]` (40_field_extractor.md R56). -/
theorem extractSoc_eq (p : Payload) : extractSoc p = p[4] := by
  apply BitVec.eq_of_toNat_eq
  show (memRead p 4 1 (by decide : 4 + 1 ≤ 8)).toNat = _
  simp only [memRead_succ_toNat, memRead_zero]
  simp

/-- VOLT is `{P[0], P[1]}` (20_memory.md R30). -/
theorem extractVolt_eq (p : Payload) : extractVolt p = p[0] ++ p[1] := by
  apply BitVec.eq_of_toNat_eq
  rw [extractVolt_toNat]
  show _ = BitVec.toNat (w := 8 + 8) (p[0] ++ p[1])
  rw [BitVec.toNat_append, Nat.shiftLeft_eq, Nat.mul_comm _ (2 ^ 8), ← Nat.two_pow_add_eq_or_of_lt p[1].isLt]
  omega

theorem accept_eq_true_iff (id : FrameId) (len : Byte) :
    accept id len = true ↔ id = Config.bmsId ∧ minLen ≤ len.toNat ∧ len.toNat ≤ maxLen := by
  simp [accept, and_assoc]

theorem accept_bmsId {len : Byte} (h1 : minLen ≤ len.toNat) (h2 : len.toNat ≤ maxLen) :
    accept Config.bmsId len = true := by
  simp [accept, h1, h2]

theorem accept_of_ne {id : FrameId} (h : id ≠ Config.bmsId) (len : Byte) : accept id len = false := by
  simp [accept, h]

end Sys2Proof.Machine
end

