-- ==== Sys2Proof/Laws/PerInstr.lean ====
section
/-! SUPPORT. Facts about each operation as a term, one lemma per constructor. Family OpcodeRow: an operation's command word
matches its row of the opcode map and no bit outside the mask is fixed by it. -/

namespace Sys2Proof.Laws.OpcodeRow

/-- The operation's command word matches the one row of 30_encoding.md section 6 that has its mnemonic. -/
def Statement (i : Instr) : Prop :=
  ∃ row ∈ opcodeTable, row.mnemonic = i.mnemonic ∧ (encode i).cmd &&& row.mask = row.pattern

theorem nop : Statement .nop := ⟨_, List.mem_cons_self, rfl, rfl⟩

theorem sample (pin : Level) : Statement (.sample pin) :=
  ⟨_, List.mem_cons_of_mem _ List.mem_cons_self, rfl, by cases pin <;> rfl⟩

theorem frame (len : Byte) (id : FrameId) (payload : Payload) : Statement (.frame len id payload) :=
  ⟨_, List.mem_cons_of_mem _ (List.mem_cons_of_mem _ List.mem_cons_self), rfl, by
    have h : ∀ l : BitVec 4, cmdOfFields l 0#1 0b10#2 &&& 0xFF87#16 = 0x0002#16 := by decide
    exact h _⟩

theorem init (pin : Level) : Statement (.init pin) :=
  ⟨_, List.mem_cons_of_mem _ (List.mem_cons_of_mem _ (List.mem_cons_of_mem _ List.mem_cons_self)), rfl,
    by cases pin <;> rfl⟩

end Sys2Proof.Laws.OpcodeRow
end

