-- ==== Sys2Proof/Laws/State.lean ====
section
/-! SUPPORT. What each named update of State does to each field, and how updates combine; no later proof unfolds a record
update. -/

namespace Sys2Proof.Machine

/-! ### takeSample -/

@[simp] theorem State.takeSample_prevSample (pin : Level) (s : State) :
    (s.takeSample pin).prevSample = s.curSample := rfl

@[simp] theorem State.takeSample_curSample (pin : Level) (s : State) :
    (s.takeSample pin).curSample = pin := rfl

@[simp] theorem State.takeSample_voltRaw (pin : Level) (s : State) :
    (s.takeSample pin).voltRaw = s.voltRaw := rfl

@[simp] theorem State.takeSample_socRaw (pin : Level) (s : State) :
    (s.takeSample pin).socRaw = s.socRaw := rfl

@[simp] theorem State.takeSample_snapValid (pin : Level) (s : State) :
    (s.takeSample pin).snapValid = s.snapValid := rfl

@[simp] theorem State.takeSample_pending (pin : Level) (s : State) :
    (s.takeSample pin).pending = s.pending := rfl

/-! ### holdSample -/

@[simp] theorem State.holdSample_prevSample (pin : Level) (s : State) :
    (s.holdSample pin).prevSample = pin := rfl

@[simp] theorem State.holdSample_curSample (pin : Level) (s : State) :
    (s.holdSample pin).curSample = pin := rfl

@[simp] theorem State.holdSample_voltRaw (pin : Level) (s : State) :
    (s.holdSample pin).voltRaw = s.voltRaw := rfl

@[simp] theorem State.holdSample_socRaw (pin : Level) (s : State) :
    (s.holdSample pin).socRaw = s.socRaw := rfl

@[simp] theorem State.holdSample_snapValid (pin : Level) (s : State) :
    (s.holdSample pin).snapValid = s.snapValid := rfl

@[simp] theorem State.holdSample_pending (pin : Level) (s : State) :
    (s.holdSample pin).pending = s.pending := rfl

/-! ### writeSnapshot -/

@[simp] theorem State.writeSnapshot_prevSample (v : BitVec 16) (c : BitVec 8) (s : State) :
    (s.writeSnapshot v c).prevSample = s.prevSample := rfl

@[simp] theorem State.writeSnapshot_curSample (v : BitVec 16) (c : BitVec 8) (s : State) :
    (s.writeSnapshot v c).curSample = s.curSample := rfl

@[simp] theorem State.writeSnapshot_voltRaw (v : BitVec 16) (c : BitVec 8) (s : State) :
    (s.writeSnapshot v c).voltRaw = v := rfl

@[simp] theorem State.writeSnapshot_socRaw (v : BitVec 16) (c : BitVec 8) (s : State) :
    (s.writeSnapshot v c).socRaw = c := rfl

@[simp] theorem State.writeSnapshot_snapValid (v : BitVec 16) (c : BitVec 8) (s : State) :
    (s.writeSnapshot v c).snapValid = true := rfl

@[simp] theorem State.writeSnapshot_pending (v : BitVec 16) (c : BitVec 8) (s : State) :
    (s.writeSnapshot v c).pending = s.pending := rfl

/-! ### clearSnapshot -/

@[simp] theorem State.clearSnapshot_prevSample (s : State) :
    (s.clearSnapshot).prevSample = s.prevSample := rfl

@[simp] theorem State.clearSnapshot_curSample (s : State) :
    (s.clearSnapshot).curSample = s.curSample := rfl

@[simp] theorem State.clearSnapshot_voltRaw (s : State) :
    (s.clearSnapshot).voltRaw = 0x0000#16 := rfl

@[simp] theorem State.clearSnapshot_socRaw (s : State) :
    (s.clearSnapshot).socRaw = 0x00#8 := rfl

@[simp] theorem State.clearSnapshot_snapValid (s : State) :
    (s.clearSnapshot).snapValid = false := rfl

@[simp] theorem State.clearSnapshot_pending (s : State) :
    (s.clearSnapshot).pending = s.pending := rfl

/-! ### setPending -/

@[simp] theorem State.setPending_prevSample (ps : List PortInput) (s : State) :
    (s.setPending ps).prevSample = s.prevSample := rfl

@[simp] theorem State.setPending_curSample (ps : List PortInput) (s : State) :
    (s.setPending ps).curSample = s.curSample := rfl

@[simp] theorem State.setPending_voltRaw (ps : List PortInput) (s : State) :
    (s.setPending ps).voltRaw = s.voltRaw := rfl

@[simp] theorem State.setPending_socRaw (ps : List PortInput) (s : State) :
    (s.setPending ps).socRaw = s.socRaw := rfl

@[simp] theorem State.setPending_snapValid (ps : List PortInput) (s : State) :
    (s.setPending ps).snapValid = s.snapValid := rfl

@[simp] theorem State.setPending_pending (ps : List PortInput) (s : State) :
    (s.setPending ps).pending = ps := rfl

/-! ### powerOnReset -/

@[simp] theorem State.powerOnReset_prevSample (pin : Level) (s : State) :
    (s.powerOnReset pin).prevSample = pin := rfl

@[simp] theorem State.powerOnReset_curSample (pin : Level) (s : State) :
    (s.powerOnReset pin).curSample = pin := rfl

@[simp] theorem State.powerOnReset_voltRaw (pin : Level) (s : State) :
    (s.powerOnReset pin).voltRaw = 0x0000#16 := rfl

@[simp] theorem State.powerOnReset_socRaw (pin : Level) (s : State) :
    (s.powerOnReset pin).socRaw = 0x00#8 := rfl

@[simp] theorem State.powerOnReset_snapValid (pin : Level) (s : State) :
    (s.powerOnReset pin).snapValid = false := rfl

@[simp] theorem State.powerOnReset_pending (pin : Level) (s : State) :
    (s.powerOnReset pin).pending = s.pending := rfl

/-! ### The reset state -/

@[simp] theorem State.resetAt_prevSample (pin : Level) : (State.resetAt pin).prevSample = pin := rfl

@[simp] theorem State.resetAt_curSample (pin : Level) : (State.resetAt pin).curSample = pin := rfl

@[simp] theorem State.resetAt_voltRaw (pin : Level) : (State.resetAt pin).voltRaw = 0x0000#16 := rfl

@[simp] theorem State.resetAt_socRaw (pin : Level) : (State.resetAt pin).socRaw = 0x00#8 := rfl

@[simp] theorem State.resetAt_snapValid (pin : Level) : (State.resetAt pin).snapValid = false := rfl

@[simp] theorem State.resetAt_pending (pin : Level) : (State.resetAt pin).pending = [] := rfl

/-! ### How updates combine -/

@[simp] theorem State.setPending_setPending (ps qs : List PortInput) (s : State) :
    (s.setPending ps).setPending qs = s.setPending qs := rfl

@[simp] theorem State.setPending_self (s : State) : s.setPending s.pending = s := rfl

theorem State.takeSample_setPending (pin : Level) (ps : List PortInput) (s : State) :
    (s.setPending ps).takeSample pin = (s.takeSample pin).setPending ps := rfl

theorem State.holdSample_setPending (pin : Level) (ps : List PortInput) (s : State) :
    (s.setPending ps).holdSample pin = (s.holdSample pin).setPending ps := rfl

theorem State.writeSnapshot_setPending (v : BitVec 16) (c : BitVec 8) (ps : List PortInput) (s : State) :
    (s.setPending ps).writeSnapshot v c = (s.writeSnapshot v c).setPending ps := rfl

theorem State.clearSnapshot_setPending (ps : List PortInput) (s : State) :
    (s.setPending ps).clearSnapshot = s.clearSnapshot.setPending ps := rfl

/-- The two sub-blocks' updates commute (41_edge_detector.md R62). -/
theorem State.writeSnapshot_takeSample (v : BitVec 16) (c : BitVec 8) (pin : Level) (s : State) :
    (s.takeSample pin).writeSnapshot v c = (s.writeSnapshot v c).takeSample pin := rfl

@[simp] theorem State.writeSnapshot_writeSnapshot (v w : BitVec 16) (c d : BitVec 8) (s : State) :
    (s.writeSnapshot v c).writeSnapshot w d = s.writeSnapshot w d := rfl

/-! ### The functions a consumer reads -/

/-- The edge depends on the two sample registers only. -/
theorem State.edge_congr {s t : State} (hp : s.prevSample = t.prevSample) (hc : s.curSample = t.curSample) :
    s.edge = t.edge := by
  simp only [State.edge, hp, hc]

theorem State.edge_eq_pressed_iff (s : State) :
    s.edge = .pressed ↔ s.prevSample = .high ∧ s.curSample = .low := by
  unfold State.edge; split <;> simp_all

@[simp] theorem State.edge_holdSample (pin : Level) (s : State) : (s.holdSample pin).edge = .none := by
  cases pin <;> rfl

theorem State.voltageV_valid {s : State} (h : s.snapValid = true) : s.voltageV = (s.voltRaw.toNat : Rat) / 10 := by
  simp [State.voltageV, physical, h, voltDesc]

theorem State.socPct_valid {s : State} (h : s.snapValid = true) : s.socPct = (s.socRaw.toNat : Rat) / 2 := by
  simp [State.socPct, physical, h, socDesc]

theorem State.voltageV_invalid {s : State} (h : s.snapValid = false) : s.voltageV = -1 := by
  simp [State.voltageV, physical, h, sentinel]

theorem State.socPct_invalid {s : State} (h : s.snapValid = false) : s.socPct = -1 := by
  simp [State.socPct, physical, h, sentinel]

end Sys2Proof.Machine
end

