-- ==== Sys2Proof/Laws/Step.lean ====
section
/-! SUPPORT. What each operation and each step can do, said once. -/

namespace Sys2Proof.Machine

/-! ### Operations -/

/-- Everything an operation can do: it answers a next state, and the state is one of these. -/
theorem exec_next_cases {i : Instr} {s t : State} (h : exec i s = .next t) :
    (i = .nop ∧ t = s) ∨
    (∃ pin, i = .sample pin ∧ t = s.takeSample pin) ∨
    (∃ len id payload, i = .frame len id payload ∧ accept id len = true ∧
      t = s.writeSnapshot (extractVolt payload) (extractSoc payload)) ∨
    (∃ len id payload, i = .frame len id payload ∧ accept id len = false ∧ t = s) ∨
    (∃ pin, i = .init pin ∧ t = (s.holdSample pin).clearSnapshot) := by
  cases i with
  | nop => exact .inl ⟨rfl, (Host.Outcome.next.inj h).symm⟩
  | sample pin => exact .inr (.inl ⟨pin, rfl, (Host.Outcome.next.inj h).symm⟩)
  | frame len id payload =>
    have ht := (Host.Outcome.next.inj h).symm
    cases ha : accept id len with
    | true => exact .inr (.inr (.inl ⟨len, id, payload, rfl, ha, by simpa [ha] using ht⟩))
    | false => exact .inr (.inr (.inr (.inl ⟨len, id, payload, rfl, ha, by simpa [ha] using ht⟩)))
  | init pin => exact .inr (.inr (.inr (.inr ⟨pin, rfl, (Host.Outcome.next.inj h).symm⟩)))

/-- An operation does not touch the host's stream. -/
theorem exec_pending {i : Instr} {s t : State} (h : exec i s = .next t) : t.pending = s.pending := by
  obtain ⟨-, rfl⟩ | ⟨_, -, rfl⟩ | ⟨_, _, _, -, -, rfl⟩ | ⟨_, _, _, -, -, rfl⟩ | ⟨_, -, rfl⟩ := exec_next_cases h <;> rfl

/-- An operation does not read the host's stream. -/
theorem exec_setPending {i : Instr} {s t : State} (h : exec i s = .next t) (ps : List PortInput) :
    exec i (s.setPending ps) = .next (t.setPending ps) := by
  obtain ⟨rfl, rfl⟩ | ⟨_, rfl, rfl⟩ | ⟨_, _, _, rfl, ha, rfl⟩ | ⟨_, _, _, rfl, ha, rfl⟩ | ⟨_, rfl, rfl⟩ :=
    exec_next_cases h
  · rfl
  · rfl
  · show Host.Outcome.next _ = _; rw [if_pos ha]; rfl
  · show Host.Outcome.next _ = _; rw [if_neg (by simp [ha])]
  · rfl

/-! ### Steps -/

@[simp] theorem State.takeNext?_nil {s : State} (h : s.pending = []) : s.takeNext? = none := by
  simp [State.takeNext?, h]

@[simp] theorem State.takeNext?_cons {s : State} {p : PortInput} {rest : List PortInput} (h : s.pending = p :: rest) :
    s.takeNext? = some (p, s.setPending rest) := by
  simp [State.takeNext?, h]

theorem step_of_takeNext?_none {s : State} (h : s.takeNext? = none) : step s = .next s := by
  simp [step, h, State.idle]

theorem step_of_decode_ok {s t : State} {p : PortInput} {i : Instr} (h : s.takeNext? = some (p, t))
    (hd : decode p = .ok i) : step s = exec i t := by
  simp [step, h, hd]

theorem step_of_decode_error {s t : State} {p : PortInput} {e : DecodeError} (h : s.takeNext? = some (p, t))
    (hd : decode p = .error e) : step s = refuse e := by
  simp [step, h, hd]

/-- Every way a step can go. -/
theorem step_cases (s : State) :
    (s.pending = [] ∧ step s = .next s) ∨
    (∃ p rest i, s.pending = p :: rest ∧ decode p = .ok i ∧ step s = exec i (s.setPending rest)) ∨
    (∃ p rest e, s.pending = p :: rest ∧ decode p = .error e ∧ step s = refuse e) := by
  cases hp : s.pending with
  | nil => exact .inl ⟨rfl, step_of_takeNext?_none (State.takeNext?_nil hp)⟩
  | cons p rest =>
    cases hd : decode p with
    | ok i => exact .inr (.inl ⟨p, rest, i, rfl, hd, step_of_decode_ok (State.takeNext?_cons hp) hd⟩)
    | error e => exact .inr (.inr ⟨p, rest, e, rfl, hd, step_of_decode_error (State.takeNext?_cons hp) hd⟩)

/-- A refused word gives no next state. -/
theorem refuse_ne_next (e : DecodeError) (t : State) : refuse e ≠ .next t := by
  cases e <;> simp [refuse]

end Sys2Proof.Machine
end

