-- ==== Sys2Proof/Laws/Run.lean ====
section
/-! SUPPORT. How runs of steps and runs of operations unfold, one step or one operation at a time. -/

namespace Sys2Proof.Machine

@[simp] theorem run_zero (s : State) : run 0 s = .next s := rfl

theorem run_succ_of_next {s t : State} (h : step s = .next t) (k : Nat) : run (k + 1) s = run k t := by
  have hc : Sys2Proof.core.step s = .next t := h
  simp only [run, Host.Core.run, hc]
  rfl

theorem run_succ_of_refused {s : State} {r : Refusal} (h : step s = .refused r) (k : Nat) :
    run (k + 1) s = .refused r := by
  have hc : Sys2Proof.core.step s = .refused r := h
  simp only [run, Host.Core.run, hc]
  rfl

@[simp] theorem execAll_nil (s : State) : execAll [] s = .next s := rfl

theorem execAll_cons_of_next {i : Instr} {s t : State} (h : exec i s = .next t) (ops : List Instr) :
    execAll (i :: ops) s = execAll ops t := by
  simp [execAll, h]

/-- Operations run one after the other compose. -/
theorem execAll_append_of_next {ops more : List Instr} {s t : State} (h : execAll ops s = .next t) :
    execAll (ops ++ more) s = execAll more t := by
  induction ops generalizing s with
  | nil => obtain rfl := Host.Outcome.next.inj h; rfl
  | cons i ops ih =>
    cases hi : exec i s with
    | next u =>
      rw [execAll_cons_of_next hi] at h
      rw [List.cons_append, execAll_cons_of_next hi, ih h]
    | fault r => exact nomatch r
    | refused r => simp [execAll, hi] at h

theorem pressedSamples_cons_of_next {i : Instr} {s t : State} (h : exec i s = .next t) (ops : List Instr) :
    pressedSamples (i :: ops) s =
      (if isSample i ∧ t.edge = .pressed then 1 else 0) + pressedSamples ops t := by
  simp [pressedSamples, h]

/-- Falls of a sequence from its first level on. -/
theorem fallCount_cons_cons (a b : Level) (l : List Level) :
    fallCount (a :: b :: l) = (if a = .high ∧ b = .low then 1 else 0) + fallCount (b :: l) := by
  simp [fallCount, List.range_succ_eq_map, List.countP_cons, List.countP_map, Function.comp_def]
  omega

end Sys2Proof.Machine
end

