-- ==== Sys2Proof/Tests/Slice0.lean ====
section
/-! SUPPORT. The model's own tests, expected results from spec/95_test_vectors.md and the worked examples of the rules, and for
every statement with hypotheses a witness that meets them, at the boundary values of each clause. -/

namespace Sys2Proof.Tests

open Sys2Proof.Machine

/-- A state written as 95_test_vectors.md writes it, with a stream. -/
def st (prev cur : Level) (volt : BitVec 16) (soc : BitVec 8) (valid : Bool) (ps : List PortInput := []) : State :=
  ⟨prev, cur, volt, soc, valid, ps⟩

/-- The payload `[01 90 00 00 64 00 00 00]` of L1.2. -/
def payload1 : Payload := #v[0x01#8, 0x90#8, 0x00#8, 0x00#8, 0x64#8, 0x00#8, 0x00#8, 0x00#8]

/-- `payload1` as the assembly notation writes it. -/
def written1 : Vector (Option Byte) 8 :=
  #v[some 0x01#8, some 0x90#8, some 0x00#8, some 0x00#8, some 0x64#8, some 0x00#8, some 0x00#8, some 0x00#8]

/-- `[12 34 AA BB 56 FF FF FF]`, F4 with nonzero bytes beyond its length 5 (L2.2). -/
def payload2 : Payload := #v[0x12#8, 0x34#8, 0xAA#8, 0xBB#8, 0x56#8, 0xFF#8, 0xFF#8, 0xFF#8]

/-- A command word on the port with both operand ports 0. -/
def port (cmd : CmdWord) : PortInput := ⟨cmd, 0#32, 0#64⟩

/-! ### Well-formedness -/

theorem test_wf_refuses_len_16 : ¬ Instr.WellFormed (.frame 16#8 0#32 payload1) := by decide

theorem test_wf_admits_len_15 : Instr.WellFormed (.frame 15#8 0#32 payload1) := by decide

/-! ### Decoding: words written out bit by bit (30_encoding.md R43, 95_test_vectors.md L2.1) -/

theorem test_decode_nop : decode (port 0b000000000_0000_0_00#16) = .ok .nop := by decide

theorem test_decode_sample_0 : decode (port 0b000000000_0000_0_01#16) = .ok (.sample .low) := by decide

theorem test_decode_sample_1 : decode (port 0b000000000_0000_1_01#16) = .ok (.sample .high) := by decide

theorem test_decode_frame_8 : decode ⟨0b000000000_1000_0_10#16, 7#32, 0x0000006400009001#64⟩ =
    .ok (.frame 8#8 7#32 payload1) := by decide

theorem test_decode_frame_15 : decode ⟨0b000000000_1111_0_10#16, 7#32, 0xFFFFFF56BBAA3412#64⟩ =
    .ok (.frame 15#8 7#32 payload2) := by decide

theorem test_decode_init_0 : decode (port 0b000000000_0000_0_11#16) = .ok (.init .low) := by decide

theorem test_decode_init_1 : decode (port 0b000000000_0000_1_11#16) = .ok (.init .high) := by decide

theorem test_decode_unused_pin : decode (port 0x0004#16) = .error .unusedFieldNonzero ∧
    decode (port 0x0006#16) = .error .unusedFieldNonzero := by decide

theorem test_decode_unused_len : decode (port 0x0008#16) = .error .unusedFieldNonzero ∧
    decode (port 0x0009#16) = .error .unusedFieldNonzero ∧ decode (port 0x000B#16) = .error .unusedFieldNonzero := by decide

/-- Both checks fail: the reserved bits are reported (60_exceptions.md R71). -/
theorem test_decode_reserved_wins : decode (port 0x0086#16) = .error .reservedBits ∧
    decode (port 0x8001#16) = .error .reservedBits ∧ decode (port 0xFFFF#16) = .error .reservedBits := by decide

/-- The encodings listed in 30_encoding.md R53. -/
theorem test_encode_words : (encode (.sample .high)).cmd = 0x0005#16 ∧ (encode (.init .high)).cmd = 0x0007#16 ∧
    (encode (.frame 5#8 0#32 payload1)).cmd = 0x002A#16 ∧ (encode (.frame 15#8 0#32 payload1)).cmd = 0x007A#16 := by decide

theorem test_encode_payload : (encode (.frame 8#8 7#32 payload1)).framePayload = 0x0000006400009001#64 := by decide

theorem test_decodeTableWord_sample : decodeTableWord 16 0x0005 = some (.sample .high) := by decide

/-! ### One step of each operation (95_test_vectors.md L2.2 to L2.5) -/

/-- N1. -/
theorem test_nop_keeps_pressed :
    step (st .high .low 0x0190#16 0x64#8 true [port 0x0000#16]) = .next (st .high .low 0x0190#16 0x64#8 true) := rfl

/-- S5: the old previous sample is irrelevant. -/
theorem test_sample_press : ∃ t, step (st .low .high 0x0190#16 0x64#8 true [port 0x0001#16]) = .next t ∧
    t = st .high .low 0x0190#16 0x64#8 true ∧ t.edge = .pressed := ⟨_, rfl, rfl, rfl⟩

/-- S6: a release is not reported. -/
theorem test_sample_release : ∃ t, step (st .high .low 0#16 0#8 false [port 0x0005#16]) = .next t ∧
    t = st .low .high 0#16 0#8 false ∧ t.edge = .none := ⟨_, rfl, rfl, rfl⟩

/-- F4: the shortest accepted length, big-endian, nonzero bytes beyond it. -/
theorem test_frame_shortest : exec (.frame 5#8 Config.bmsId payload2) (st .high .high 0#16 0#8 false) =
    .next (st .high .high 0x1234#16 0x56#8 true) := by
  show Host.Outcome.next (if _ then _ else _) = _
  rw [accept_bmsId (by decide) (by decide)]
  rfl

/-- F3: all 32 bits of the identifier are compared. -/
theorem test_frame_foreign_id : exec (.frame 8#8 (Config.bmsId ^^^ 0x80000000#32) payload1)
    (st .high .high 0x0190#16 0x64#8 true) = .next (st .high .high 0x0190#16 0x64#8 true) := by
  have h : Config.bmsId ^^^ 0x80000000#32 ≠ Config.bmsId := by
    intro h
    have := congrArg (fun v => v.getLsbD 31) h
    simp at this
  show Host.Outcome.next (if _ then _ else _) = _
  rw [accept_of_ne h]
  rfl

/-- I1. -/
theorem test_init_clears : step (st .high .low 0x0190#16 0x64#8 true [port 0x0007#16]) =
    .next (st .high .high 0#16 0#8 false) := rfl

/-- P4: a refused word has no next state. -/
theorem test_refused_word : step (st .high .high 0#16 0#8 false [port 0x0006#16]) = .refused .unusedFieldNonzero := rfl

/-- F9: the top of both ranges, and the sentinel before it. -/
theorem test_physical_values : (st .high .high 0xFFFF#16 0xFF#8 true).voltageV = 65535 / 10 ∧
    (st .high .high 0xFFFF#16 0xFF#8 true).socPct = 255 / 2 ∧ (st .high .high 0#16 0#8 false).voltageV = -1 := by
  refine ⟨?_, ?_, rfl⟩
  · rw [State.voltageV_valid rfl]; rfl
  · rw [State.socPct_valid rfl]; rfl

/-- The four edge and valid bits on the ports (30_encoding.md R47). -/
theorem test_outputs : (st .high .low 0x0190#16 0x64#8 true).outputs = ⟨1#1, 1#1, 0x0190#16, 0x64#8⟩ := by decide

/-- R53: `_` at or beyond `len` is 0x00, before it no line of the notation. -/
theorem test_asm_blank_bytes :
    AsmFrame.toInstr ⟨9#32, 5, #v[some 0x12#8, some 0x34#8, some 0xAA#8, some 0xBB#8, some 0x56#8, none, none, none]⟩ =
      some (.frame 5#8 9#32 #v[0x12#8, 0x34#8, 0xAA#8, 0xBB#8, 0x56#8, 0x00#8, 0x00#8, 0x00#8]) ∧
    AsmFrame.toInstr ⟨9#32, 5, #v[some 0x12#8, none, none, none, none, none, none, none]⟩ = none := by decide

/-- The falls of L1.3's levels after `INIT 1`. -/
theorem test_fallCount : fallCount [.high, .high, .high, .low, .low, .high] = 1 ∧
    fallCount [.high, .low, .high, .low, .high, .low] = 3 := by decide

/-! ### Witnesses: each statement's hypotheses, met at the boundaries of its clauses -/

theorem accepted_5 : FrameAccepted Config.bmsId (5#8 : Byte).toNat := ⟨rfl, by decide, by decide⟩

theorem accepted_8 : FrameAccepted Config.bmsId (8#8 : Byte).toNat := ⟨rfl, by decide, by decide⟩

theorem not_accepted_4_9 : ¬ FrameAccepted Config.bmsId (4#8 : Byte).toNat ∧
    ¬ FrameAccepted Config.bmsId (9#8 : Byte).toNat := ⟨fun h => absurd h.2.1 (by decide), fun h => absurd h.2.2 (by decide)⟩

theorem witness_DecodeEncodeRoundTrip : Instr.WellFormed (.frame 15#8 0xFFFFFFFF#32 payload2) ∧
    Instr.WellFormed (.frame 0#8 0#32 payload1) ∧ Instr.WellFormed (.init .low) := by decide

theorem witness_EncodeGivesBackDecodedInput : ∃ i, decode ⟨0x007A#16, 7#32, 0xFFFFFF56BBAA3412#64⟩ = .ok i ∧
    isFrame i = true := ⟨.frame 15#8 7#32 payload2, by decide⟩

theorem witness_DecoderVerdictOnEveryWord : 128 ≤ (0x0080#16).toNat ∧
    ((0x007C#16).toNat < 128 ∧ (0x007C#16).toNat % 4 = 0) ∧ ((0x007D#16).toNat < 128 ∧ (0x007D#16).toNat % 4 = 1) ∧
    ((0x007E#16).toNat < 128 ∧ (0x007E#16).toNat % 4 = 2) ∧ ((0x007F#16).toNat < 128 ∧ (0x007F#16).toNat % 4 = 3) := by decide

theorem witness_DecoderFollowsOpcodeTable : ∃ row ∈ opcodeTable, (0x007A#16 &&& row.mask) = row.pattern :=
  ⟨⟨"FRAME", 0xFF87#16, 0x0002#16⟩, by decide⟩

theorem witness_OperandPortsDontCareOutsideFrame :
    (decode ⟨0x0005#16, 1#32, 2#64⟩ = .ok (.sample .high) ∧ isFrame (.sample .high) = false) ∧
    decode ⟨0x0006#16, 1#32, 2#64⟩ = .error .unusedFieldNonzero ∧
    decode ⟨0x0042#16, 7#32, 0x0000006400009001#64⟩ = .ok (.frame 8#8 7#32 payload1) := by decide

theorem witness_OperandsAreWordFields : decode (port 0x0000#16) = .ok .nop ∧ decode (port 0x0005#16) = .ok (.sample .high) ∧
    decode ⟨0x007A#16, 7#32, 0xFFFFFF56BBAA3412#64⟩ = .ok (.frame 15#8 7#32 payload2) ∧
    decode (port 0x0003#16) = .ok (.init .low) := by decide

theorem witness_PayloadPortPacking : (0 : Nat) < 8 ∧ (7 : Nat) < 8 := by decide

theorem witness_AssembledFrameLine :
    (AsmFrame.toInstr ⟨9#32, 0, #v[none, none, none, none, none, none, none, none]⟩).isSome = true ∧
    (AsmFrame.toInstr ⟨9#32, 15, written1⟩).isSome = true := by decide

theorem witness_StepRunsDecodedOperation :
    (st .high .high 0#16 0#8 false [port 0x0005#16]).pending = port 0x0005#16 :: [] ∧
    decode (port 0x0005#16) = .ok (.sample .high) := by decide

theorem witness_StepWithNothingIssued : (State.resetAt .high).pending = [] := rfl

theorem witness_RefusedWordEndsTheRun :
    (st .high .high 0#16 0#8 false [port 0x0080#16]).pending = port 0x0080#16 :: [] ∧
    decode (port 0x0080#16) = .error .reservedBits ∧ decode (port 0x0004#16) = .error .unusedFieldNonzero ∧
    step (st .high .high 0#16 0#8 false [port 0x0080#16]) = .refused .reservedBits ∧
    run 2 (st .high .high 0#16 0#8 false [port 0x0005#16, port 0x0006#16]) = .refused .unusedFieldNonzero :=
  ⟨rfl, by decide, by decide, rfl, rfl⟩

theorem witness_StreamRunsInIssueOrder :
    (∀ i ∈ [Instr.sample .low, .frame 15#8 7#32 payload1], i.WellFormed) ∧
    (st .high .high 0#16 0#8 false ([Instr.sample .low, .frame 15#8 7#32 payload1].map encode ++ [port 0x0080#16])).pending =
      [Instr.sample .low, .frame 15#8 7#32 payload1].map encode ++ [port 0x0080#16] := ⟨by decide, rfl⟩

theorem witness_StepCompletesExactlyOnLegalWords :
    (st .low .low 0#16 0#8 false [port 0xFFFF#16]).pending = port 0xFFFF#16 :: [] := rfl

theorem witness_PlacedWordRunsNext : decodeTableWord 16 0x007A = some (.frame 15#8 0#32 (Vector.replicate 8 0#8)) ∧
    decodeTableWord 16 0x0080 = none := by decide

theorem witness_FrameCompletes : FrameAccepted Config.bmsId (5#8 : Byte).toNat ∧ FrameAccepted Config.bmsId (8#8 : Byte).toNat ∧
    ¬ FrameAccepted Config.bmsId (4#8 : Byte).toNat ∧ ¬ FrameAccepted Config.bmsId (9#8 : Byte).toNat :=
  ⟨accepted_5, accepted_8, not_accepted_4_9⟩

theorem witness_OperationFrames : ∃ s t, exec (.frame 4#8 0#32 payload1) s = .next t ∧
    isFrame (.frame 4#8 0#32 payload1) = true ∧ s.snapValid = true :=
  ⟨st .high .low 1#16 2#8 true, _, rfl, rfl, rfl⟩

theorem witness_OperationFrames_sample : ∃ s t, exec (.sample .low) s = .next t ∧ isSample (.sample .low) = true :=
  ⟨st .high .low 1#16 2#8 true, _, rfl, rfl⟩

/-- The two lengths next to the accepted ones, with the right identifier. -/
theorem witness_OperationFrames_rejected : ∃ s t u, exec (.frame 4#8 Config.bmsId payload1) s = .next t ∧
    exec (.frame 9#8 Config.bmsId payload1) s = .next u ∧
    ¬ FrameAccepted Config.bmsId (4#8 : Byte).toNat ∧ ¬ FrameAccepted Config.bmsId (9#8 : Byte).toNat :=
  ⟨st .high .low 1#16 2#8 true, _, _, rfl, rfl, not_accepted_4_9⟩

theorem witness_OperationFrames_init : ∃ s t, exec (.init .low) s = .next t :=
  ⟨st .high .low 1#16 2#8 true, _, rfl⟩

theorem witness_NopWordEffect : (port 0x0000#16).cmd = 0x0000#16 ∧ (port 0x0004#16).cmd.toNat % 4 = 0 ∧ (port 0x0004#16).cmd ≠ 0x0000#16 := by decide

theorem witness_SampleWordEffect : (port 0x0005#16).cmd &&& 0xFFFB#16 = 0x0001#16 ∧
    (port 0x0009#16).cmd.toNat % 4 = 1 ∧ (port 0x0009#16).cmd &&& 0xFFFB#16 ≠ 0x0001#16 := by decide

theorem witness_FrameWordEffect :
    (∃ p : PortInput, p.cmd &&& 0xFF87#16 = 0x0002#16 ∧
      (p.frameId = Config.bmsId ∧ 5 ≤ p.cmd.toNat / 8 % 16 ∧ p.cmd.toNat / 8 % 16 ≤ 8)) ∧
    (∃ p : PortInput, p.cmd &&& 0xFF87#16 = 0x0002#16 ∧
      ¬ (p.frameId = Config.bmsId ∧ 5 ≤ p.cmd.toNat / 8 % 16 ∧ p.cmd.toNat / 8 % 16 ≤ 8)) ∧
    (port 0x0006#16).cmd.toNat % 4 = 2 ∧ (port 0x0006#16).cmd &&& 0xFF87#16 ≠ 0x0002#16 :=
  ⟨⟨⟨0x002A#16, Config.bmsId, 0#64⟩, by decide, rfl, by decide, by decide⟩,
    ⟨⟨0x004A#16, Config.bmsId, 0#64⟩, by decide, fun h => absurd h.2.2 (by decide)⟩, by decide, by decide⟩

theorem witness_InitWordEffect : (port 0x0003#16).cmd &&& 0xFFFB#16 = 0x0003#16 ∧
    (port 0x000B#16).cmd.toNat % 4 = 3 ∧ (port 0x000B#16).cmd &&& 0xFFFB#16 ≠ 0x0003#16 := by decide

theorem witness_FieldPrimitiveInstances : 65535 ≤ 65535 ∧ 0 ≤ 65535 ∧ 255 ≤ 255 ∧ 0 ≤ 255 := by decide

theorem witness_FrameIdempotentWithoutHistory : FrameAccepted Config.bmsId (8#8 : Byte).toNat := accepted_8

theorem witness_RejectedFrameChangesNothing :
    (∃ id : FrameId, id ≠ Config.bmsId) ∧ (4#8 : Byte).toNat < 5 ∧ 8 < (9#8 : Byte).toNat :=
  ⟨⟨Config.bmsId ^^^ 1#32, fun h => by
    have := congrArg (fun v => v.getLsbD 0) h
    simp at this⟩, by decide, by decide⟩

theorem witness_MalformedFramesIgnored : (∃ id : FrameId, id ≠ Config.bmsId) ∧ (4#8 : Byte).toNat < 5 ∧
    (9 ≤ (9#8 : Byte).toNat ∧ (9#8 : Byte).toNat ≤ 15) ∧ (9 ≤ (15#8 : Byte).toNat ∧ (15#8 : Byte).toNat ≤ 15) :=
  ⟨witness_RejectedFrameChangesNothing.1, by decide, by decide, by decide⟩

theorem witness_BytesBeyondLengthIgnored : ∃ p q : Payload, p ≠ q ∧
    ∀ (k : Nat) (hk : k < 8), k < (5#8 : Byte).toNat → p[k] = q[k] :=
  ⟨payload2, #v[0x12#8, 0x34#8, 0xAA#8, 0xBB#8, 0x56#8, 0x00#8, 0x00#8, 0x00#8], by decide, by decide⟩

theorem witness_PayloadOffsetMap : FrameAccepted Config.bmsId (5#8 : Byte).toNat ∧
    ∃ p q : Payload, p ≠ q ∧ p[0] = q[0] ∧ p[1] = q[1] ∧ p[4] = q[4] :=
  ⟨accepted_5, payload1, #v[0x01#8, 0x90#8, 0xFF#8, 0xFF#8, 0x64#8, 0xFF#8, 0xFF#8, 0xFF#8], by decide⟩

theorem witness_SnapshotSingleWriter : FrameAccepted Config.bmsId (8#8 : Byte).toNat ∧
    ∃ s t, exec (.init .high) s = .next t ∧ t.snapshot ≠ s.snapshot :=
  ⟨accepted_8, st .high .high 0x0190#16 0x64#8 true, _, rfl, by decide⟩

theorem witness_SnapshotSingleWriter_frame : ∃ s t, exec (.frame 5#8 Config.bmsId payload2) s = .next t ∧
    t.snapshot ≠ s.snapshot :=
  ⟨st .high .high 0#16 0#8 false, _, test_frame_shortest, by decide⟩

theorem witness_StepKeepsSnapshotInv : (st .high .low 0#16 0#8 false [port 0x0005#16]).SnapshotInv ∧
    ∃ t, step (st .high .low 0#16 0#8 false [port 0x0005#16]) = .next t := ⟨fun _ => ⟨rfl, rfl⟩, _, rfl⟩

theorem witness_RunsKeepSnapshotInv : ∃ t, run 2 { State.resetAt .high with pending := [port 0x0001#16, port 0x0007#16] } =
    .next t := ⟨_, rfl⟩

theorem witness_PhysicalValues : (st .high .high 0xFFFF#16 0xFF#8 true).snapValid = true ∧
    (st .high .high 0#16 0#8 true).snapValid = true ∧ (st .high .high 0#16 0#8 false).snapValid = false := by decide

theorem witness_EdgeOutputRule : (st .low .low 0#16 0#8 false).edge ≠ .pressed ∧
    ∃ t, exec (.sample .low) (st .high .high 0#16 0#8 false) = .next t ∧ t.edge ≠ (st .high .high 0#16 0#8 false).edge :=
  ⟨by decide, _, rfl, by decide⟩

theorem witness_EdgeHeldThroughNopAndFrame :
    ∀ i ∈ [Instr.nop, .frame 8#8 Config.bmsId payload1], i = .nop ∨ isFrame i = true := by
  simp [isFrame]

theorem witness_EdgeCountLaw : ∀ i ∈ [Instr.sample .low, .nop, .frame 8#8 0#32 payload1, .sample .high], isInit i = false := by
  decide

theorem witness_SubBlocksInterleaveFreely : ∃ s s' : State, s ≠ s' ∧ s.prevSample = s'.prevSample ∧
    s.curSample = s'.curSample := ⟨st .high .low 1#16 0#8 true, st .high .low 2#16 0#8 true, by decide⟩

theorem witness_SubBlocksInterleaveFreely_snapshot : ∃ s s' : State, s ≠ s' ∧ s.snapshot = s'.snapshot :=
  ⟨st .high .low 1#16 0#8 true, st .low .low 1#16 0#8 true, by decide⟩

theorem witness_SubBlocksInterleaveFreely_ops :
    ∀ i ∈ [Instr.frame 8#8 0#32 payload1, .sample .low, .frame 5#8 0#32 payload2], isSample i = true ∨ isFrame i = true := by
  decide

theorem witness_SampleRegistersHoldLastTwoLevels : ∀ i ∈ [Instr.sample .low, .nop, .sample .high], isInit i = false := by
  decide

theorem witness_TickShowsPreviousSnapshot :
    ((AsmOp.tickFrame .low ⟨9#32, 8, written1⟩).expand).isSome = true := by decide

theorem witness_TicksKeepHostOrder_lines :
    AsmFrame.toInstr ⟨9#32, 8, written1⟩ = some (.frame 8#8 9#32 payload1) ∧ AsmFrame.toInstr ⟨9#32, 16, written1⟩ = none := by
  decide

theorem witness_PlainAssemblyLines : AsmFrame.toInstr ⟨9#32, 15, written1⟩ = some (.frame 15#8 9#32 payload1) := by decide

theorem witness_TicksKeepHostOrder : ∃ opss : List (List Instr),
    (∀ a ∈ [AsmOp.tick .high, .tickFrame .low ⟨9#32, 0, written1⟩],
      (∃ pin, a = .tick pin) ∨ ∃ pin f, a = .tickFrame pin f) ∧
    [AsmOp.tick .high, .tickFrame .low ⟨9#32, 0, written1⟩].map AsmOp.expand = opss.map some :=
  ⟨[[.sample .high], [.sample .low, .frame 0#8 9#32 payload1]], by simp, by decide⟩

end Sys2Proof.Tests
end

section
/-! PROOFS. The state (10_state.md): what one operation does to the sample registers and to the snapshot, the two
inductions over runs, and the statements of the family. -/

namespace Sys2Proof.Machine

/-! ### Each operation's answer -/

@[simp] theorem exec_nop (s : State) : exec .nop s = .next s := rfl

@[simp] theorem exec_sample (pin : Level) (s : State) : exec (.sample pin) s = .next (s.takeSample pin) := rfl

@[simp] theorem exec_init (pin : Level) (s : State) : exec (.init pin) s = .next (s.holdSample pin).clearSnapshot := rfl

theorem exec_frame (len : Byte) (id : FrameId) (payload : Payload) (s : State) :
    exec (.frame len id payload) s =
      .next (if accept id len then s.writeSnapshot (extractVolt payload) (extractSoc payload) else s) := rfl

/-- No operation stops the block (60_exceptions.md R75). -/
theorem exec_completes (i : Instr) (s : State) : ∃ t, exec i s = .next t := by
  cases i <;> exact ⟨_, rfl⟩

/-- The acceptance predicate is the three conditions of 40_field_extractor.md R54. -/
theorem accept_iff_frameAccepted (id : FrameId) (len : Byte) : accept id len = true ↔ FrameAccepted id len.toNat :=
  accept_eq_true_iff id len

theorem exec_frame_of_accepted {len : Byte} {id : FrameId} (h : FrameAccepted id len.toNat) (payload : Payload)
    (s : State) :
    exec (.frame len id payload) s = .next (s.writeSnapshot (extractVolt payload) (extractSoc payload)) := by
  rw [exec_frame, if_pos ((accept_iff_frameAccepted id len).2 h)]

theorem exec_frame_of_not_accepted {len : Byte} {id : FrameId} (h : ¬ FrameAccepted id len.toNat) (payload : Payload)
    (s : State) : exec (.frame len id payload) s = .next s := by
  rw [exec_frame, if_neg (mt (accept_iff_frameAccepted id len).1 h)]

/-- A FRAME, accepted or not, never clears the valid bit (40_field_extractor.md R55, R58). -/
theorem exec_frame_keeps_valid {len : Byte} {id : FrameId} {payload : Payload} {s t : State}
    (h : exec (.frame len id payload) s = .next t) (hv : s.snapValid = true) : t.snapValid = true := by
  by_cases ha : FrameAccepted id len.toNat
  · rw [exec_frame_of_accepted ha] at h
    exact Host.Outcome.next.inj h ▸ rfl
  · rw [exec_frame_of_not_accepted ha] at h
    exact Host.Outcome.next.inj h ▸ hv

/-! ### Which operations determine the snapshot, and with what -/

theorem setsSnapshot_frame_iff (len : Byte) (id : FrameId) (payload : Payload) :
    setsSnapshot (.frame len id payload) = true ↔ FrameAccepted id len.toNat :=
  decide_eq_true_iff

/-- The operations that determine the snapshot are INIT and the accepted FRAMEs (10_state.md R22). -/
theorem setsSnapshot_iff (i : Instr) : setsSnapshot i = true ↔
    isInit i = true ∨ ∃ len id payload, i = .frame len id payload ∧ FrameAccepted id len.toNat := by
  cases i with
  | nop => simp [setsSnapshot, isInit]
  | sample pin => simp [setsSnapshot, isInit]
  | frame len id payload => simp [setsSnapshot_frame_iff, isInit]
  | init pin => simp [setsSnapshot, isInit]

/-- The snapshot an operation leaves where it determines one: a frame's fields (40_field_extractor.md R55), or the cleared
registers (42_block_control.md R64). -/
def writtenSnapshot : Instr → BitVec 16 × BitVec 8 × Bool
  | .frame _ _ payload => (payload[0] ++ payload[1], payload[4], true)
  | _ => (0x0000#16, 0x00#8, false)

@[simp] theorem State.takeSample_snapshot (pin : Level) (s : State) : (s.takeSample pin).snapshot = s.snapshot := rfl

@[simp] theorem State.clearSnapshot_snapshot (s : State) : s.clearSnapshot.snapshot = (0x0000#16, 0x00#8, false) := rfl

@[simp] theorem State.writeSnapshot_snapshot (v : BitVec 16) (c : BitVec 8) (s : State) :
    (s.writeSnapshot v c).snapshot = (v, c, true) := rfl

/-- An operation that determines the snapshot replaces it whole, any other leaves it as it was. -/
theorem exec_snapshot {i : Instr} {s t : State} (h : exec i s = .next t) :
    t.snapshot = if setsSnapshot i = true then writtenSnapshot i else s.snapshot := by
  obtain ⟨rfl, rfl⟩ | ⟨pin, rfl, rfl⟩ | ⟨len, id, payload, rfl, ha, rfl⟩ | ⟨len, id, payload, rfl, ha, rfl⟩ |
    ⟨pin, rfl, rfl⟩ := exec_next_cases h
  · rfl
  · exact State.takeSample_snapshot pin s
  · rw [if_pos ((setsSnapshot_frame_iff len id payload).2 ((accept_iff_frameAccepted id len).1 ha)),
      State.writeSnapshot_snapshot, extractVolt_eq, extractSoc_eq]
    rfl
  · have hna : ¬ FrameAccepted id len.toNat := by rw [← accept_iff_frameAccepted, ha]; decide
    rw [if_neg (mt (setsSnapshot_frame_iff len id payload).1 hna)]
  · exact State.clearSnapshot_snapshot (s.holdSample pin)

theorem exec_snapshot_of_sets {i : Instr} {s t : State} (h : exec i s = .next t) (hi : setsSnapshot i = true) :
    t.snapshot = writtenSnapshot i := by
  rw [exec_snapshot h, if_pos hi]

theorem exec_snapshot_of_not_sets {i : Instr} {s t : State} (h : exec i s = .next t) (hi : setsSnapshot i = false) :
    t.snapshot = s.snapshot := by
  rw [exec_snapshot h, if_neg (by simp [hi])]

/-! ### The sample registers -/

/-- Only SAMPLE and INIT write the sample registers (10_state.md R15, R16). -/
theorem exec_samples_unchanged {i : Instr} {s t : State} (h : exec i s = .next t) (hs : isSample i = false)
    (hn : isInit i = false) : t.prevSample = s.prevSample ∧ t.curSample = s.curSample := by
  obtain ⟨-, rfl⟩ | ⟨pin, rfl, -⟩ | ⟨_, _, _, -, -, rfl⟩ | ⟨_, _, _, -, -, rfl⟩ | ⟨pin, rfl, -⟩ := exec_next_cases h
  · exact ⟨rfl, rfl⟩
  · cases hs
  · exact ⟨rfl, rfl⟩
  · exact ⟨rfl, rfl⟩
  · cases hn

theorem isSample_eq_true_iff (i : Instr) : isSample i = true ↔ ∃ pin, i = .sample pin := by
  cases i <;> simp [isSample]

theorem sampledLevels_cons_of_not_sample {i : Instr} (h : isSample i = false) (ops : List Instr) :
    sampledLevels (i :: ops) = sampledLevels ops := by
  cases i with
  | sample pin => cases h
  | nop => rfl
  | frame len id payload => rfl
  | init pin => rfl

/-! ### Runs of operations and runs of steps -/

/-- A run of operations completes exactly through its first operation's next state. -/
theorem execAll_cons_iff (i : Instr) (ops : List Instr) (s t : State) :
    execAll (i :: ops) s = .next t ↔ ∃ u, exec i s = .next u ∧ execAll ops u = .next t := by
  obtain ⟨u, hu⟩ := exec_completes i s
  simp [execAll_cons_of_next hu, hu]

/-- Every sequence of operations completes (60_exceptions.md R75). -/
theorem execAll_completes (ops : List Instr) (s : State) : ∃ t, execAll ops s = .next t := by
  induction ops generalizing s with
  | nil => exact ⟨s, rfl⟩
  | cons i ops ih =>
    obtain ⟨u, hu⟩ := exec_completes i s
    rw [execAll_cons_of_next hu]
    exact ih u

/-- What every step keeps holds at the end of every run. -/
theorem run_keeps {P : State → Prop} (hstep : ∀ s t, P s → step s = .next t → P t) {k : Nat} {s t : State} (hs : P s)
    (h : run k s = .next t) : P t := by
  induction k generalizing s with
  | zero => exact Host.Outcome.next.inj h ▸ hs
  | succ k ih =>
    cases hk : step s with
    | next u => exact ih (hstep s u hs hk) (run_succ_of_next hk k ▸ h)
    | fault r => exact nomatch r
    | refused r => cases (run_succ_of_refused hk k).symm.trans h

/-- The last operation that determines the snapshot is looked for in the later operations first. -/
theorem latestSnapshotOp_cons (i : Instr) (ops : List Instr) :
    latestSnapshotOp (i :: ops) = (latestSnapshotOp ops).or (if setsSnapshot i = true then some i else none) := by
  simp [latestSnapshotOp, List.find?_append, List.find?_singleton]

/-- The snapshot after a run is what the last operation that determines it wrote, or the old one. -/
theorem execAll_snapshot {ops : List Instr} {s t : State} (h : execAll ops s = .next t) :
    t.snapshot = (latestSnapshotOp ops).elim s.snapshot writtenSnapshot := by
  induction ops generalizing s with
  | nil => exact Host.Outcome.next.inj h ▸ rfl
  | cons i ops ih =>
    obtain ⟨u, hu, ht⟩ := (execAll_cons_iff i ops s t).1 h
    rw [ih ht, exec_snapshot hu, latestSnapshotOp_cons]
    cases latestSnapshotOp ops with
    | some j => rfl
    | none => by_cases hi : setsSnapshot i = true <;> simp [hi]

/-- Without an INIT, the sample registers shift in the sampled levels one by one. -/
theorem execAll_samples {ops : List Instr} {s t : State} (hn : ∀ i ∈ ops, isInit i = false)
    (h : execAll ops s = .next t) : [t.prevSample, t.curSample] =
      (s.prevSample :: s.curSample :: sampledLevels ops).drop (sampledLevels ops).length := by
  induction ops generalizing s with
  | nil => exact Host.Outcome.next.inj h ▸ rfl
  | cons i ops ih =>
    obtain ⟨u, hu, ht⟩ := (execAll_cons_iff i ops s t).1 h
    have hrest := ih (fun j hj => hn j (List.mem_cons_of_mem i hj)) ht
    cases hi : isSample i with
    | true =>
      obtain ⟨pin, rfl⟩ := (isSample_eq_true_iff i).1 hi
      obtain rfl := Host.Outcome.next.inj hu
      exact hrest
    | false =>
      obtain ⟨hprev, hcur⟩ := exec_samples_unchanged hu hi (hn i List.mem_cons_self)
      rw [sampledLevels_cons_of_not_sample hi, hrest, hprev, hcur]

/-! ### The snapshot invariant (10_state.md R23) -/

theorem State.writeSnapshot_snapshotInv (v : BitVec 16) (c : BitVec 8) (s : State) : (s.writeSnapshot v c).SnapshotInv :=
  fun h => nomatch h

theorem State.clearSnapshot_snapshotInv (s : State) : s.clearSnapshot.SnapshotInv := fun _ => ⟨rfl, rfl⟩

theorem State.resetAt_snapshotInv (pin : Level) : (State.resetAt pin).SnapshotInv := fun _ => ⟨rfl, rfl⟩

@[simp] theorem State.takeSample_snapshotInv (pin : Level) (s : State) :
    (s.takeSample pin).SnapshotInv ↔ s.SnapshotInv := Iff.rfl

@[simp] theorem State.setPending_snapshotInv (ps : List PortInput) (s : State) :
    (s.setPending ps).SnapshotInv ↔ s.SnapshotInv := Iff.rfl

theorem exec_keeps_snapshotInv {i : Instr} {s t : State} (hs : s.SnapshotInv) (h : exec i s = .next t) :
    t.SnapshotInv := by
  obtain ⟨-, rfl⟩ | ⟨pin, -, rfl⟩ | ⟨_, _, payload, -, -, rfl⟩ | ⟨_, _, _, -, -, rfl⟩ | ⟨pin, -, rfl⟩ := exec_next_cases h
  · exact hs
  · exact (State.takeSample_snapshotInv pin s).2 hs
  · exact State.writeSnapshot_snapshotInv _ _ s
  · exact hs
  · exact State.clearSnapshot_snapshotInv _

theorem step_keeps_snapshotInv (s t : State) (hs : s.SnapshotInv) (h : step s = .next t) : t.SnapshotInv := by
  obtain ⟨-, hstep⟩ | ⟨_, rest, i, -, -, hstep⟩ | ⟨_, _, e, -, -, hstep⟩ := step_cases s
  · exact Host.Outcome.next.inj (hstep.symm.trans h) ▸ hs
  · exact exec_keeps_snapshotInv ((State.setPending_snapshotInv rest s).2 hs) (hstep.symm.trans h)
  · exact absurd (hstep.symm.trans h) (refuse_ne_next e t)

/-! ### The physical values (10_state.md R21) -/

theorem physical_true_nonneg (f : FieldDesc) (raw : Nat) : 0 ≤ physical true f raw :=
  div_nonneg raw.cast_nonneg f.divisor.cast_nonneg

theorem physical_true_le (f : FieldDesc) {raw n : Nat} (h : raw ≤ n) :
    physical true f raw ≤ (n : Rat) / (f.divisor : Rat) :=
  div_le_div_of_nonneg_right (Nat.cast_le.2 h) f.divisor.cast_nonneg

/-- The sentinel is negative and a decoded value is not, so the two cannot be confused. -/
theorem physical_eq_sentinel_iff (valid : Bool) (f : FieldDesc) (raw : Nat) :
    physical valid f raw = -1 ↔ valid = false := by
  cases valid with
  | false => exact iff_of_true rfl rfl
  | true =>
    have := physical_true_nonneg f raw
    exact iff_of_false (by linarith) (by decide)

theorem State.voltageV_range {s : State} (h : s.snapValid = true) : 0 ≤ s.voltageV ∧ s.voltageV ≤ 65535 / 10 := by
  have hlt := s.voltRaw.isLt
  rw [State.voltageV, h]
  exact ⟨physical_true_nonneg _ _, physical_true_le voltDesc (n := 65535) (by omega)⟩

theorem State.socPct_range {s : State} (h : s.snapValid = true) : 0 ≤ s.socPct ∧ s.socPct ≤ 255 / 2 := by
  have hlt := s.socRaw.isLt
  rw [State.socPct, h]
  exact ⟨physical_true_nonneg _ _, physical_true_le socDesc (n := 255) (by omega)⟩

/-! ### The statements of 10_state.md -/

/-- Settles O36, by the ways a step can go. -/
theorem stepKeepsSnapshotInv : Obligations.StepKeepsSnapshotInv := step_keeps_snapshotInv

/-- Settles O37: reset clears the snapshot at either level. -/
theorem resetHasSnapshotInv : Obligations.ResetHasSnapshotInv :=
  ⟨State.resetAt_snapshotInv Config.pinAtReset, State.resetAt_snapshotInv⟩

/-- Settles O38, by induction on the steps: the invariant does not see the stream that is issued after reset. -/
theorem runsKeepSnapshotInv : Obligations.RunsKeepSnapshotInv := fun pin ps _ _ h =>
  run_keeps step_keeps_snapshotInv ((State.setPending_snapshotInv ps _).2 (State.resetAt_snapshotInv pin)) h

/-- Settles O34: an operation changes the snapshot only if it determines it, and then it writes it whole. -/
theorem snapshotSingleWriter : Obligations.SnapshotSingleWriter := by
  refine ⟨fun i s t h hne => ?_, fun len id payload s ha => ?_, fun pin s =>
    ⟨_, exec_init pin s, State.clearSnapshot_snapshot _⟩⟩
  · rw [← setsSnapshot_iff]
    by_contra hi
    exact hne (exec_snapshot_of_not_sets h (Bool.eq_false_iff.2 hi))
  · obtain ⟨t, ht⟩ := exec_completes (.frame len id payload) s
    exact ⟨t, ht, exec_snapshot_of_sets ht ((setsSnapshot_frame_iff len id payload).2 ha)⟩

/-- Settles O35, by induction on the sequence of operations. -/
theorem snapshotHoldsLatestFrame : Obligations.SnapshotHoldsLatestFrame := by
  intro ops s
  obtain ⟨t, ht⟩ := execAll_completes ops s
  refine ⟨t, ht, (execAll_snapshot ht).trans ?_⟩
  cases latestSnapshotOp ops with
  | none => rfl
  | some i => cases i <;> rfl

/-- Settles O39: a decoded value is an exact quotient of a natural number, so never the negative sentinel. -/
theorem physicalValues : Obligations.PhysicalValues := by
  refine fun s => ⟨fun h => ?_, fun h => ⟨State.voltageV_invalid h, State.socPct_invalid h⟩,
    physical_eq_sentinel_iff _ _ _, physical_eq_sentinel_iff _ _ _⟩
  obtain ⟨hv, hv'⟩ := State.voltageV_range h
  obtain ⟨hc, hc'⟩ := State.socPct_range h
  exact ⟨State.voltageV_valid h, State.socPct_valid h, hv, hv', hc, hc'⟩

/-- Settles O45, by induction on the sequence of operations. -/
theorem sampleRegistersHoldLastTwoLevels : Obligations.SampleRegistersHoldLastTwoLevels := by
  intro ops s hn
  obtain ⟨t, ht⟩ := execAll_completes ops s
  exact ⟨t, ht, execAll_samples hn ht⟩

/-- Settles O46, operation by operation: whether a FRAME is accepted depends on no register. -/
theorem noOperationReadsAFlag : Obligations.NoOperationReadsAFlag := by
  intro i s
  cases i with
  | nop => exact ⟨s, exec_nop s, fun _ => exec_nop _, fun _ => exec_nop _⟩
  | sample pin => exact ⟨_, exec_sample pin s, fun _ => exec_sample pin _, fun _ => exec_sample pin _⟩
  | init pin => exact ⟨_, exec_init pin s, fun _ => exec_init pin _, fun _ => exec_init pin _⟩
  | frame len id payload =>
    by_cases ha : FrameAccepted id len.toNat
    · refine ⟨_, exec_frame_of_accepted ha payload s, fun b => ?_, fun l => exec_frame_of_accepted ha payload _⟩
      rw [exec_frame_of_accepted ha, if_pos ((setsSnapshot_frame_iff len id payload).2 ha)]
      rfl
    · refine ⟨_, exec_frame_of_not_accepted ha payload s, fun b => ?_, fun l => exec_frame_of_not_accepted ha payload _⟩
      rw [exec_frame_of_not_accepted ha, if_neg (mt (setsSnapshot_frame_iff len id payload).1 ha)]

/-- Settles O21, from the frame facts of the sample registers, the snapshot and the stream. -/
theorem operationFrames : Obligations.OperationFrames := by
  intro i s t h
  refine ⟨exec_pending h, fun hi => ?_, fun hi => ?_, fun hi hv => ?_, ?_, ?_⟩
  · cases i with
    | nop => exact exec_samples_unchanged h rfl rfl
    | frame len id payload => exact exec_samples_unchanged h rfl rfl
    | sample pin => simp [isFrame] at hi
    | init pin => simp [isFrame] at hi
  · cases i with
    | nop => exact exec_snapshot_of_not_sets h rfl
    | sample pin => exact exec_snapshot_of_not_sets h rfl
    | frame len id payload => simp [isSample] at hi
    | init pin => simp [isSample] at hi
  · cases i with
    | frame len id payload => exact exec_frame_keeps_valid h hv
    | nop => cases hi
    | sample pin => cases hi
    | init pin => cases hi
  · rintro len id payload rfl hna
    exact (Host.Outcome.next.inj ((exec_frame_of_not_accepted hna payload s).symm.trans h)).symm
  · rintro pin rfl
    obtain rfl := Host.Outcome.next.inj h
    exact ⟨rfl, rfl, rfl⟩

end Sys2Proof.Machine
end

section
/-! PROOFS. The payload and the order of operations (20_memory.md): the decoder gives back every encoded operation, the
fields at their offsets, the bytes a FRAME uses, a stream of encoded operations, a tick with a frame, and the statements
of the family. -/

namespace Sys2Proof

/-! ### Decoding an encoded operation (30_encoding.md R43, R48, R49) -/

@[simp] theorem payloadOfPort_portOfPayload (p : Payload) : payloadOfPort (portOfPayload p) = p := by
  apply Vector.ext
  intro k hk
  rw [payloadOfPort_getElem]
  show BitVec.extractLsb' (n := 8 + 8 + 8 + 8 + 8 + 8 + 8 + 8) (8 * k) 8
    (p[7] ++ p[6] ++ p[5] ++ p[4] ++ p[3] ++ p[2] ++ p[1] ++ p[0]) = p[k]
  interval_cases k <;>
    simp (disch := omega) only [BitVec.extractLsb'_append_eq_of_le, BitVec.extractLsb'_append_eq_of_add_le] <;>
    exact BitVec.extractLsb'_eq_self

/-- The 4-bit length field spells a length up to 15 exactly (30_encoding.md R48). -/
theorem lenOperand_setWidth {len : Byte} (h : len.toNat ≤ 15) : (len.setWidth 4).zeroExtend 8 = len :=
  BitVec.setWidth_setWidth_eq_self (Nat.lt_succ_of_le h)

theorem Instr.wellFormed_frame_iff (len : Byte) (id : FrameId) (payload : Payload) :
    (Instr.frame len id payload).WellFormed ↔ len.toNat ≤ 15 := decide_eq_true_iff

/-- Decoding the port input that issues a well-formed operation gives the operation (30_encoding.md R51). -/
theorem decode_encode {i : Instr} (h : i.WellFormed) : decode (encode i) = .ok i := by
  cases i with
  | nop => rfl
  | sample pin => simp [encode, decode]
  | init pin => simp [encode, decode]
  | frame len id payload =>
    have hlen := lenOperand_setWidth ((Instr.wellFormed_frame_iff len id payload).1 h)
    simpa [encode, decode] using hlen

end Sys2Proof

namespace Sys2Proof.Machine

/-! ### The fields and the bytes they come from (20_memory.md R28, R30, R33) -/

theorem extractVolt_eq_shiftLeft_or (p : Payload) :
    extractVolt p = (p[0].zeroExtend 16 <<< 8) ||| p[1].zeroExtend 16 :=
  calc
    extractVolt p = (p[0] ++ p[1]).setWidth 16 := (extractVolt_eq p).trans (BitVec.setWidth_eq (p[0] ++ p[1])).symm
    _ = (p[0].zeroExtend 16 <<< 8) ||| p[1].zeroExtend 16 := BitVec.setWidth_append_eq_shiftLeft_setWidth_or

/-- VOLT's more significant byte is at offset 0. -/
theorem extractVolt_high (p : Payload) : (extractVolt p).extractLsb' 8 8 = p[0] := by
  rw [extractVolt_eq]
  exact BitVec.extractLsb'_append_eq_left

/-- VOLT's less significant byte is at offset 1. -/
theorem extractVolt_low (p : Payload) : (extractVolt p).extractLsb' 0 8 = p[1] := by
  rw [extractVolt_eq]
  exact BitVec.extractLsb'_append_eq_right

/-- A FRAME uses no payload byte but those at offsets 0, 1 and 4. -/
theorem exec_frame_payload_congr {p q : Payload} (h0 : p[0] = q[0]) (h1 : p[1] = q[1]) (h4 : p[4] = q[4]) (len : Byte)
    (id : FrameId) (s : State) : exec (.frame len id p) s = exec (.frame len id q) s := by
  have hv : extractVolt p = extractVolt q := by rw [extractVolt_eq, extractVolt_eq, h0, h1]
  have hc : extractSoc p = extractSoc q := by rw [extractSoc_eq, extractSoc_eq, h4]
  rw [exec_frame, exec_frame, hv, hc]

/-! ### The host's stream (20_memory.md R37) -/

/-- A step takes the oldest operation issued, runs it and leaves the rest issued (30_encoding.md R41). -/
theorem step_setPending_encode {i : Instr} (hi : i.WellFormed) {s t : State} (h : exec i s = .next t)
    (rest : List PortInput) : step (s.setPending (encode i :: rest)) = .next (t.setPending rest) := by
  rw [step_of_decode_ok (State.takeNext?_cons (State.setPending_pending _ s)) (decode_encode hi)]
  exact exec_setPending h rest

/-- As many steps as operations issued go where the operations run in order go. -/
theorem run_setPending_encode {ops : List Instr} (hops : ∀ i ∈ ops, i.WellFormed) {s t : State}
    (h : execAll ops s = .next t) (rest : List PortInput) :
    run ops.length (s.setPending (ops.map encode ++ rest)) = .next (t.setPending rest) := by
  induction ops generalizing s with
  | nil => exact Host.Outcome.next.inj h ▸ rfl
  | cons i ops ih =>
    obtain ⟨u, hu, ht⟩ := (execAll_cons_iff i ops s t).1 h
    obtain ⟨hi, hrest⟩ := List.forall_mem_cons.1 hops
    exact (run_succ_of_next (step_setPending_encode hi hu _) ops.length).trans (ih hrest ht)

/-! ### A tick with a frame (20_memory.md R38) -/

/-- A tick with a frame is a SAMPLE, then a FRAME (70_reset_and_hazards.md R88). -/
theorem AsmOp.expand_tickFrame {pin : Level} {f : AsmFrame} {ops : List Instr}
    (h : (AsmOp.tickFrame pin f).expand = some ops) :
    ∃ len id payload, ops = [.sample pin, .frame len id payload] := by
  obtain ⟨i, hi, rfl⟩ := Option.map_eq_some_iff.1 h
  obtain ⟨-, hf⟩ | ⟨-, hf⟩ := f.toInstr_cases
  · obtain rfl := Option.some.inj (hi.symm.trans hf)
    exact ⟨_, _, _, rfl⟩
  · cases hi.symm.trans hf

@[simp] theorem State.takeSample_voltageV (pin : Level) (s : State) : (s.takeSample pin).voltageV = s.voltageV := rfl

@[simp] theorem State.takeSample_socPct (pin : Level) (s : State) : (s.takeSample pin).socPct = s.socPct := rfl

/-- What writes no sample register leaves the edge as it was (41_edge_detector.md R60). -/
theorem exec_edge_unchanged {i : Instr} {s t : State} (h : exec i s = .next t) (hs : isSample i = false)
    (hn : isInit i = false) : t.edge = s.edge :=
  (exec_samples_unchanged h hs hn).elim State.edge_congr

/-! ### The statements of 20_memory.md -/

/-- Settles O13: the operations' run exists, and the steps follow it by induction on the operations. -/
theorem streamRunsInIssueOrder : Obligations.StreamRunsInIssueOrder := by
  intro ops rest s hops hp
  obtain ⟨t, ht⟩ := execAll_completes ops s
  have hrun := run_setPending_encode hops ht rest
  rw [← hp, State.setPending_self] at hrun
  exact ⟨t, ht, hrun⟩

/-- Settles O27: VOLT is byte 0 followed by byte 1. -/
theorem voltIsBigEndian : Obligations.VoltIsBigEndian := fun payload =>
  ⟨extractVolt_eq_shiftLeft_or payload, by rw [extractVolt_toNat, Nat.mul_comm]⟩

/-- Settles O32: an accepted frame is at least 5 bytes long, so offsets 0, 1 and 4 lie below its length; any other frame
uses no byte. -/
theorem bytesBeyondLengthIgnored : Obligations.BytesBeyondLengthIgnored := by
  intro len id p q s hpq
  by_cases ha : FrameAccepted id len.toNat
  · have hlen : 5 ≤ len.toNat := ha.2.1
    exact exec_frame_payload_congr (hpq 0 (by omega) (by omega)) (hpq 1 (by omega) (by omega))
      (hpq 4 (by omega) (by omega)) len id s
  · rw [exec_frame_of_not_accepted ha, exec_frame_of_not_accepted ha]

/-- Settles O33, from the two fields' bytes. -/
theorem payloadOffsetMap : Obligations.PayloadOffsetMap :=
  ⟨fun _ _ p s ha => ⟨_, exec_frame_of_accepted ha p s, extractVolt_high p, extractVolt_low p, extractSoc_eq p⟩,
    fun len id _ _ s h0 h1 h4 => exec_frame_payload_congr h0 h1 h4 len id s⟩

/-- Settles O50: the tick's SAMPLE leaves the snapshot, its FRAME the edge. -/
theorem tickShowsPreviousSnapshot : Obligations.TickShowsPreviousSnapshot := by
  intro pin f ops s h
  obtain ⟨len, id, payload, rfl⟩ := AsmOp.expand_tickFrame h
  obtain ⟨t, ht⟩ := exec_completes (.frame len id payload) (s.takeSample pin)
  have hall : execAll [.sample pin, .frame len id payload] s = .next t :=
    (execAll_cons_of_next (exec_sample pin s) _).trans (execAll_cons_of_next ht [])
  exact ⟨_, t, exec_sample pin s, hall, State.takeSample_snapshot pin s,
    State.takeSample_voltageV pin s, State.takeSample_socPct pin s, (exec_edge_unchanged ht rfl rfl).symm⟩

end Sys2Proof.Machine
end

section
/-! PROOFS. The encoding (30_encoding.md): the command word's fields as numbers, the decoder operation by operation, the
operations a port input decodes to, the opcode map, the operand ports, and the statements of the family. -/

namespace Sys2Proof

/-! ### The command word's fields as numbers (30_encoding.md R43) -/

theorem rsvField_eq_iff (cmd : CmdWord) (b : BitVec 9) : rsvField cmd = b ↔ cmd.toNat / 128 = b.toNat := by
  rw [← BitVec.toNat_inj, rsvField, BitVec.extractLsb'_toNat, Nat.shiftRight_eq_div_pow]
  have := cmd.isLt
  omega

theorem lenField_eq_iff (cmd : CmdWord) (b : BitVec 4) : lenField cmd = b ↔ cmd.toNat / 8 % 16 = b.toNat := by
  rw [← BitVec.toNat_inj, lenField, BitVec.extractLsb'_toNat, Nat.shiftRight_eq_div_pow]

theorem pinField_eq_iff (cmd : CmdWord) (b : BitVec 1) : pinField cmd = b ↔ cmd.toNat / 4 % 2 = b.toNat := by
  rw [← BitVec.toNat_inj, pinField, BitVec.extractLsb'_toNat, Nat.shiftRight_eq_div_pow]

theorem opField_eq_iff (cmd : CmdWord) (b : BitVec 2) : opField cmd = b ↔ cmd.toNat % 4 = b.toNat := by
  rw [← BitVec.toNat_inj, opField, BitVec.extractLsb'_toNat, Nat.shiftRight_zero]

/-- The length operand is the length field, zero-extended (30_encoding.md R48). -/
theorem lenOperand_toNat (cmd : CmdWord) : ((lenField cmd).zeroExtend 8).toNat = cmd.toNat / 8 % 16 :=
  (BitVec.toNat_setWidth_of_le (by decide)).trans ((lenField_eq_iff cmd _).1 rfl).symm

/-- A reserved bit is set exactly in the words from 128 on (30_encoding.md R46). -/
theorem rsvField_eq_zero_iff (cmd : CmdWord) : rsvField cmd = 0#9 ↔ cmd.toNat < 128 := by
  rw [rsvField_eq_iff, BitVec.toNat_zero]
  omega

/-- Below the reserved bits the length field is all there is above bit 2. -/
theorem lenField_eq_zero_iff {cmd : CmdWord} (h : cmd.toNat < 128) : lenField cmd = 0#4 ↔ cmd.toNat / 8 = 0 := by
  rw [lenField_eq_iff, BitVec.toNat_zero]
  omega

/-- The word that packs three fields (30_encoding.md section 6). -/
theorem cmdOfFields_toNat (len : BitVec 4) (pin : BitVec 1) (op : BitVec 2) :
    (cmdOfFields len pin op).toNat = 8 * len.toNat + 4 * pin.toNat + op.toNat := by
  simp [cmd_toNat (cmdOfFields len pin op)]

theorem Level.ofBit_pinField (cmd : CmdWord) :
    Level.ofBit (pinField cmd) = if cmd.toNat / 4 % 2 = 1 then .high else .low :=
  if_congr (pinField_eq_iff cmd 1#1) rfl rfl

/-! ### The decoder, operation by operation (30_encoding.md R51) -/

section
variable {p : PortInput}

theorem decode_of_reserved (hr : rsvField p.cmd ≠ 0#9) : decode p = .error .reservedBits := if_pos hr

theorem decode_of_op_nop (hr : rsvField p.cmd = 0#9) (ho : opField p.cmd = 0b00#2) :
    decode p = if pinField p.cmd = 0#1 ∧ lenField p.cmd = 0#4 then .ok .nop else .error .unusedFieldNonzero := by
  simp [decode, hr, ho, ← not_and_or, -not_and]

theorem decode_of_op_sample (hr : rsvField p.cmd = 0#9) (ho : opField p.cmd = 0b01#2) :
    decode p = if lenField p.cmd = 0#4 then .ok (.sample (Level.ofBit (pinField p.cmd)))
      else .error .unusedFieldNonzero := by
  simp [decode, hr, ho]

theorem decode_of_op_frame (hr : rsvField p.cmd = 0#9) (ho : opField p.cmd = 0b10#2) :
    decode p = if pinField p.cmd = 0#1
      then .ok (.frame ((lenField p.cmd).zeroExtend 8) p.frameId (payloadOfPort p.framePayload))
      else .error .unusedFieldNonzero := by
  simp [decode, hr, ho]

theorem decode_of_op_init (hr : rsvField p.cmd = 0#9) (ho : opField p.cmd = 0b11#2) :
    decode p = if lenField p.cmd = 0#4 then .ok (.init (Level.ofBit (pinField p.cmd)))
      else .error .unusedFieldNonzero := by
  simp [decode, hr, ho]

end

/-! ### The payload port (30_encoding.md R49) -/

/-- A port value is its eight bytes: bit `k` is bit `k % 8` of byte `k / 8`. -/
theorem payloadOfPort_injective {v w : BitVec 64} (h : payloadOfPort v = payloadOfPort w) : v = w := by
  apply BitVec.eq_of_getLsbD_eq
  intro k hk
  have hbyte : v.extractLsb' (8 * (k / 8)) 8 = w.extractLsb' (8 * (k / 8)) 8 := by
    rw [← payloadOfPort_getElem v (k / 8) (by omega), ← payloadOfPort_getElem w (k / 8) (by omega), h]
  have hbit := congrArg (BitVec.getLsbD · (k % 8)) hbyte
  simpa [BitVec.getLsbD_extractLsb', Nat.mod_lt, Nat.div_add_mod] using hbit

@[simp] theorem portOfPayload_payloadOfPort (w : BitVec 64) : portOfPayload (payloadOfPort w) = w :=
  payloadOfPort_injective (payloadOfPort_portOfPayload _)

/-! ### The operand ports (30_encoding.md R42) -/

/-- The operation as it reads with other values on the operand ports: only a FRAME takes its operands from them. -/
def Instr.withOperandPorts (id : FrameId) (w : BitVec 64) : Instr → Instr
  | .frame len _ _ => .frame len id (payloadOfPort w)
  | i => i

theorem Instr.withOperandPorts_of_not_frame {i : Instr} (h : Machine.isFrame i = false) (id : FrameId) (w : BitVec 64) :
    i.withOperandPorts id w = i := by
  cases i with
  | frame len id' payload => cases h
  | nop => rfl
  | sample pin => rfl
  | init pin => rfl

/-- Whatever is on the operand ports, the decoder answers the same but for a FRAME's operands. -/
theorem decode_withOperandPorts (c : CmdWord) (id id' : FrameId) (w w' : BitVec 64) :
    decode ⟨c, id', w'⟩ = (decode ⟨c, id, w⟩).map (Instr.withOperandPorts id' w') := by
  unfold decode
  split_ifs <;> rfl

/-! ### The operations a port input decodes to (30_encoding.md R43, R51) -/

/-- A port input decodes to exactly the well-formed operations whose word it carries and whose operands it has on the
ports. -/
theorem decode_eq_ok_iff (p : PortInput) (i : Instr) : decode p = .ok i ↔
    i.WellFormed ∧ (encode i).cmd = p.cmd ∧ i.withOperandPorts p.frameId p.framePayload = i := by
  constructor
  · intro h
    obtain ⟨-, hd⟩ | ⟨-, -, -, hd⟩ | ⟨hr, ho, hp, hl, hd⟩ | ⟨-, -, -, hd⟩ | ⟨hr, ho, hl, hd⟩ | ⟨-, -, -, hd⟩ |
      ⟨hr, ho, hp, hd⟩ | ⟨-, -, -, hd⟩ | ⟨hr, ho, hl, hd⟩ := decode_cases p <;>
      cases hd.symm.trans h
    · exact ⟨rfl, by simpa [encode, hp, hl, ho] using cmdOfFields_fields hr, rfl⟩
    · exact ⟨rfl, by simpa [encode, hl, ho] using cmdOfFields_fields hr, rfl⟩
    · have hlen : ((lenField p.cmd).zeroExtend 8).toNat ≤ 15 := by rw [lenOperand_toNat]; omega
      exact ⟨(Instr.wellFormed_frame_iff _ _ _).2 hlen, by simpa [encode, hp, ho] using cmdOfFields_fields hr, rfl⟩
    · exact ⟨rfl, by simpa [encode, hl, ho] using cmdOfFields_fields hr, rfl⟩
  · rintro ⟨hwf, hcmd, hports⟩
    calc
      decode p = (decode (encode i)).map (Instr.withOperandPorts p.frameId p.framePayload) := by
        rw [← decode_withOperandPorts, hcmd]
      _ = .ok i := by rw [decode_encode hwf]; exact congrArg Except.ok hports

/-- A command word is decoded, whatever the ports, exactly if it is the word of a well-formed operation. -/
theorem decode_completes_iff (p : PortInput) :
    (∃ i, decode p = .ok i) ↔ ∃ i : Instr, i.WellFormed ∧ (encode i).cmd = p.cmd := by
  constructor
  · rintro ⟨i, h⟩
    obtain ⟨hwf, hcmd, -⟩ := (decode_eq_ok_iff p i).1 h
    exact ⟨i, hwf, hcmd⟩
  · rintro ⟨i, hwf, hcmd⟩
    refine ⟨i.withOperandPorts p.frameId p.framePayload, (decode_eq_ok_iff p _).2 ?_⟩
    cases i with
    | frame len id payload => exact ⟨hwf, hcmd, rfl⟩
    | nop => exact ⟨hwf, hcmd, rfl⟩
    | sample pin => exact ⟨hwf, hcmd, rfl⟩
    | init pin => exact ⟨hwf, hcmd, rfl⟩

theorem decode_eq_frame_iff (p : PortInput) (len : Byte) (id : FrameId) (payload : Payload) :
    decode p = .ok (.frame len id payload) ↔ len.toNat ≤ 15 ∧
      (encode (.frame len id payload)).cmd = p.cmd ∧ p.frameId = id ∧ payloadOfPort p.framePayload = payload := by
  rw [decode_eq_ok_iff, Instr.wellFormed_frame_iff]
  simp [Instr.withOperandPorts]

/-! ### The words of the operations (30_encoding.md R51, R53) -/

theorem encode_sample_toNat (pin : Level) : (encode (.sample pin)).cmd.toNat = 4 * pin.toBit.toNat + 1 := by
  simp [encode, cmdOfFields_toNat]

theorem encode_init_toNat (pin : Level) : (encode (.init pin)).cmd.toNat = 4 * pin.toBit.toNat + 3 := by
  simp [encode, cmdOfFields_toNat]

theorem encode_frame_toNat {len : Byte} (h : len.toNat ≤ 15) (id : FrameId) (payload : Payload) :
    (encode (.frame len id payload)).cmd.toNat = 8 * len.toNat + 2 := by
  have hfield : len.toNat % 16 = len.toNat := Nat.mod_eq_of_lt (by omega)
  simp [encode, cmdOfFields_toNat, hfield]

theorem encode_frame_cmd {len : Byte} (h : len.toNat ≤ 15) (id : FrameId) (payload : Payload) :
    (encode (.frame len id payload)).cmd = BitVec.ofNat 16 (8 * len.toNat + 2) := by
  apply BitVec.eq_of_toNat_eq
  rw [encode_frame_toNat h, BitVec.toNat_ofNat]
  omega

/-- A length the word can spell, as a byte. -/
theorem lenByte_toNat {n : Nat} (h : n ≤ 15) : (BitVec.ofNat 8 n).toNat = n := by
  rw [BitVec.toNat_ofNat]
  omega

theorem Level.toBit_toNat_eq_one_iff (pin : Level) : pin.toBit.toNat = 1 ↔ pin = .high := by
  cases pin <;> decide

/-- The 21 legal words are the words of the well-formed operations. -/
theorem mem_legalWords_iff (c : CmdWord) :
    c ∈ Machine.legalWords ↔ ∃ i : Instr, i.WellFormed ∧ (encode i).cmd = c := by
  constructor
  · intro h
    obtain hc | hc := List.mem_append.1 h
    · simp only [List.mem_cons, List.not_mem_nil, or_false] at hc
      obtain rfl | rfl | rfl | rfl | rfl := hc
      · exact ⟨.nop, rfl, rfl⟩
      · exact ⟨.sample .low, rfl, rfl⟩
      · exact ⟨.sample .high, rfl, rfl⟩
      · exact ⟨.init .low, rfl, rfl⟩
      · exact ⟨.init .high, rfl, rfl⟩
    · obtain ⟨n, hn, rfl⟩ := List.mem_map.1 hc
      have hnat : (BitVec.ofNat 8 n).toNat = n := lenByte_toNat (Nat.le_of_lt_succ (List.mem_range.1 hn))
      have hlen : (BitVec.ofNat 8 n).toNat ≤ 15 := hnat.le.trans (Nat.le_of_lt_succ (List.mem_range.1 hn))
      refine ⟨.frame (BitVec.ofNat 8 n) 0#32 (payloadOfPort 0#64), (Instr.wellFormed_frame_iff _ _ _).2 hlen, ?_⟩
      rw [encode_frame_cmd hlen, hnat]
  · rintro ⟨i, hwf, rfl⟩
    cases i with
    | nop => decide
    | sample pin => cases pin <;> decide
    | init pin => cases pin <;> decide
    | frame len id payload =>
      have hlen := (Instr.wellFormed_frame_iff len id payload).1 hwf
      rw [encode_frame_cmd hlen]
      exact List.mem_append_right _ (List.mem_map_of_mem (List.mem_range.2 (by omega)))

/-! ### The opcode map (30_encoding.md section 6) -/

theorem opcodeTable_mnemonic_injective :
    ∀ a ∈ opcodeTable, ∀ b ∈ opcodeTable, a.mnemonic = b.mnemonic → a = b := by
  decide

theorem encode_matches_some_row (i : Instr) : Laws.OpcodeRow.Statement i := by
  cases i with
  | nop => exact Laws.OpcodeRow.nop
  | sample pin => exact Laws.OpcodeRow.sample pin
  | frame len id payload => exact Laws.OpcodeRow.frame len id payload
  | init pin => exact Laws.OpcodeRow.init pin

/-- An operation's word matches the row of its mnemonic. -/
theorem encode_matches_row {row : OpcodeRow} (hrow : row ∈ opcodeTable) {i : Instr} (h : i.mnemonic = row.mnemonic) :
    (encode i).cmd &&& row.mask = row.pattern := by
  obtain ⟨row', hrow', hm, hmatch⟩ := encode_matches_some_row i
  obtain rfl := opcodeTable_mnemonic_injective row' hrow' row hrow (hm.trans h)
  exact hmatch

/-- A word that matches a row decodes to an operation of the row: the mask covers every field but the operands. -/
theorem decode_of_matches_row {row : OpcodeRow} (hrow : row ∈ opcodeTable) {p : PortInput}
    (h : p.cmd &&& row.mask = row.pattern) : ∃ i, decode p = .ok i ∧ i.mnemonic = row.mnemonic := by
  simp only [opcodeTable, List.mem_cons, List.not_mem_nil, or_false] at hrow
  obtain rfl | rfl | rfl | rfl := hrow
  · obtain ⟨hr, hl, hp, ho⟩ := (cmd_masked_iff p.cmd (.allOnes 9) 0#9 (.allOnes 4) 0#4 (.allOnes 1) 0#1
      (.allOnes 2) 0b00#2).1 h
    rw [BitVec.and_allOnes] at hr hl hp ho
    exact ⟨_, (decode_of_op_nop hr ho).trans (if_pos ⟨hp, hl⟩), rfl⟩
  · obtain ⟨hr, hl, -, ho⟩ := (cmd_masked_iff p.cmd (.allOnes 9) 0#9 (.allOnes 4) 0#4 0#1 0#1
      (.allOnes 2) 0b01#2).1 h
    rw [BitVec.and_allOnes] at hr hl ho
    exact ⟨_, (decode_of_op_sample hr ho).trans (if_pos hl), rfl⟩
  · obtain ⟨hr, -, hp, ho⟩ := (cmd_masked_iff p.cmd (.allOnes 9) 0#9 0#4 0#4 (.allOnes 1) 0#1
      (.allOnes 2) 0b10#2).1 h
    rw [BitVec.and_allOnes] at hr hp ho
    exact ⟨_, (decode_of_op_frame hr ho).trans (if_pos hp), rfl⟩
  · obtain ⟨hr, hl, -, ho⟩ := (cmd_masked_iff p.cmd (.allOnes 9) 0#9 (.allOnes 4) 0#4 0#1 0#1
      (.allOnes 2) 0b11#2).1 h
    rw [BitVec.and_allOnes] at hr hl ho
    exact ⟨_, (decode_of_op_init hr ho).trans (if_pos hl), rfl⟩

end Sys2Proof

namespace Sys2Proof.Machine

/-! ### Placed words (log 3), written frames and level tokens (30_encoding.md R53) -/

/-- What the decoder makes of the bits of a placed word. -/
theorem decodeTableWord_eq (nbits w : Nat) :
    decodeTableWord nbits w = (decode (PortInput.ofBits nbits w)).toOption := by
  unfold decodeTableWord
  cases decode (PortInput.ofBits nbits w) <;> rfl

theorem State.withFetchWord_pending (s : State) (nbits w : Nat) :
    (s.withFetchWord nbits w).pending = PortInput.ofBits nbits w :: s.pending := rfl

/-- A refused word ends the step with the decoder's reason (60_exceptions.md R73). -/
theorem refuse_eq_refused (e : DecodeError) : ∃ r, refuse e = .refused r := by
  cases e <;> exact ⟨_, rfl⟩

/-- A written frame assembles exactly if its length fits and no byte below the length is blank. -/
theorem AsmFrame.toInstr_isSome_iff (f : AsmFrame) : f.toInstr.isSome = true ↔
    f.len ≤ 15 ∧ ∀ k : Fin 8, k.val < f.len → f.bytes[k.val].isSome := by
  obtain ⟨h, hf⟩ | ⟨h, hf⟩ := f.toInstr_cases
  · exact iff_of_true (by rw [hf]; rfl) h
  · exact iff_of_false (by rw [hf]; decide) h

/-- The operation of a written frame that assembles. -/
theorem AsmFrame.eq_of_toInstr_eq_some {f : AsmFrame} {i : Instr} (h : f.toInstr = some i) : f.len ≤ 15 ∧
    i = .frame (BitVec.ofNat 8 f.len) f.id (Vector.ofFn fun k => f.bytes[k.val].getD 0x00#8) := by
  obtain ⟨⟨hlen, -⟩, hf⟩ | ⟨-, hf⟩ := f.toInstr_cases
  · exact ⟨hlen, Option.some.inj (h.symm.trans hf)⟩
  · cases h.symm.trans hf

theorem levelOfToken_eq_high_iff (t : String) : levelOfToken t = some .high ↔ t = "1" ∨ t = "HIGH" := by
  unfold levelOfToken
  split_ifs with h1 h2
  · exact iff_of_true rfl h1
  · exact iff_of_false (by decide) h1
  · exact iff_of_false (by decide) h1

theorem levelOfToken_eq_low_iff (t : String) : levelOfToken t = some .low ↔ t = "0" ∨ t = "LOW" := by
  unfold levelOfToken
  split_ifs with h1 h2
  · obtain rfl | rfl := h1 <;> decide
  · exact iff_of_true rfl h2
  · exact iff_of_false (by decide) h2

/-! ### The statements of 30_encoding.md -/

/-- Settles O1: each field of the packed word is read back. -/
theorem decodeEncodeRoundTrip : Obligations.DecodeEncodeRoundTrip := fun _ => decode_encode

/-- Settles O2, from what a port input decodes to; a FRAME's ports are recovered from its operands. -/
theorem encodeGivesBackDecodedInput : Obligations.EncodeGivesBackDecodedInput := by
  intro p i h
  obtain ⟨hwf, hcmd, -⟩ := (decode_eq_ok_iff p i).1 h
  refine ⟨hwf, hcmd, fun hi => ?_⟩
  cases i with
  | frame len id payload =>
    obtain ⟨-, -, rfl, rfl⟩ := (decode_eq_frame_iff p len id payload).1 h
    exact congrArg₂ (PortInput.mk · p.frameId ·) hcmd (portOfPayload_payloadOfPort p.framePayload)
  | nop => cases hi
  | sample pin => cases hi
  | init pin => cases hi

/-- Settles O4, from the row of an operation's word and the decoding of a matching word. -/
theorem decoderFollowsOpcodeTable : Obligations.DecoderFollowsOpcodeTable := by
  refine fun row hrow p => ⟨decode_of_matches_row hrow, ?_⟩
  rintro ⟨i, hd, hm⟩
  obtain ⟨-, hcmd, -⟩ := (decode_eq_ok_iff p i).1 hd
  exact hcmd ▸ encode_matches_row hrow hm

/-- Settles O5: other ports change a FRAME's operands only. -/
theorem operandPortsDontCareOutsideFrame : Obligations.OperandPortsDontCareOutsideFrame := by
  refine ⟨fun c id id' w w' i h hi => ?_, fun c id id' w w' e h => ?_, fun p len id payload h => ?_⟩
  · rw [decode_withOperandPorts c id id' w w', h]
    exact congrArg Except.ok (Instr.withOperandPorts_of_not_frame hi id' w')
  · rw [decode_withOperandPorts c id id' w w', h]
    rfl
  · obtain ⟨-, -, rfl, rfl⟩ := (decode_eq_frame_iff p len id payload).1 h
    exact ⟨rfl, payloadOfPort_getElem p.framePayload⟩

/-- Settles O7: the packing and the unpacking of the port are inverse. -/
theorem payloadPortPacking : Obligations.PayloadPortPacking := by
  refine ⟨payloadOfPort_getElem, fun payload k hk => ?_, portOfPayload_payloadOfPort⟩
  rw [← payloadOfPort_getElem _ k hk, payloadOfPort_portOfPayload]

/-- Settles O6, from the word of the decoded operation. -/
theorem operandsAreWordFields : Obligations.OperandsAreWordFields := by
  intro p
  refine ⟨fun h => ?_, fun pin h => ?_, fun len id payload h => ?_, fun pin h => ?_⟩
  · obtain ⟨-, hcmd, -⟩ := (decode_eq_ok_iff p _).1 h
    rw [← hcmd]
    rfl
  · obtain ⟨-, hcmd, -⟩ := (decode_eq_ok_iff p _).1 h
    rw [← hcmd, encode_sample_toNat, ← pin.toBit_toNat_eq_one_iff]
    omega
  · obtain ⟨hlen, hcmd, rfl, -⟩ := (decode_eq_frame_iff p len id payload).1 h
    rw [← hcmd, encode_frame_toNat hlen]
    exact ⟨by omega, by omega, rfl⟩
  · obtain ⟨-, hcmd, -⟩ := (decode_eq_ok_iff p _).1 h
    rw [← hcmd, encode_init_toNat, ← pin.toBit_toNat_eq_one_iff]
    omega

/-- Settles O3: each clause is the decoder on one operation code, its fields read as numbers. -/
theorem decoderVerdictOnEveryWord : Obligations.DecoderVerdictOnEveryWord := by
  refine ⟨fun p => ?_, by decide, by decide, fun p => ?_⟩
  · have hr := (rsvField_eq_zero_iff p.cmd).2
    have hop := fun b => (opField_eq_iff p.cmd b).2
    have hpin := Level.ofBit_pinField p.cmd
    refine ⟨fun hw => ?_, fun hw ho => ?_, fun hw ho => ?_, fun hw ho => ?_, fun hw ho => ?_⟩
    · exact decode_of_reserved (mt (rsvField_eq_zero_iff p.cmd).1 (by omega))
    · rw [decode_of_op_nop (hr hw) (hop _ ho)]
      refine if_congr ?_ rfl rfl
      rw [pinField_eq_iff, lenField_eq_zero_iff hw, BitVec.toNat_zero]
      omega
    · rw [decode_of_op_sample (hr hw) (hop _ ho), hpin]
      exact if_congr (lenField_eq_zero_iff hw) rfl rfl
    · have hlen : (lenField p.cmd).zeroExtend 8 = BitVec.ofNat 8 (p.cmd.toNat / 8) := by
        apply BitVec.eq_of_toNat_eq
        rw [lenByte_toNat (by omega), lenOperand_toNat]
        omega
      rw [decode_of_op_frame (hr hw) (hop _ ho), hlen]
      exact if_congr (pinField_eq_iff p.cmd 0#1) rfl rfl
    · rw [decode_of_op_init (hr hw) (hop _ ho), hpin]
      exact if_congr (lenField_eq_zero_iff hw) rfl rfl
  · rw [decode_completes_iff, mem_legalWords_iff]

/-- Settles O9, from both answers of a written frame. -/
theorem assembledFrameLine : Obligations.AssembledFrameLine := by
  refine ⟨fun f => ?_, fun f i h => ?_⟩
  · rw [f.toInstr_isSome_iff]
    refine and_congr_right fun _ => Fin.forall_iff.trans (forall₂_congr fun k hk => ?_)
    rw [Option.isSome_iff_ne_none, ← Nat.not_lt]
    exact imp_not_comm
  · obtain ⟨hlen, rfl⟩ := AsmFrame.eq_of_toInstr_eq_some h
    have hnat := lenByte_toNat hlen
    refine ⟨⟨_, _, rfl, hnat, fun k hk => Vector.getElem_ofFn hk⟩, ?_, ?_⟩
    · rw [encode_frame_toNat (by omega), hnat]
    · rw [Instr.wellFormed_frame_iff, hnat]
      exact hlen

/-- Settles O8: six closed evaluations of the decoder. -/
theorem writtenOutWordsDecode : Obligations.WrittenOutWordsDecode := by
  unfold Obligations.WrittenOutWordsDecode
  decide

/-- Settles O10: the oldest issued input is the one taken. -/
theorem stepRunsDecodedOperation : Obligations.StepRunsDecodedOperation := fun _ _ _ _ hp hd =>
  step_of_decode_ok (State.takeNext?_cons hp) hd

/-- Settles O16, by what the decoder answers on the placed bits. -/
theorem placedWordRunsNext : Obligations.PlacedWordRunsNext := by
  intro s nbits w
  have hnext := State.takeNext?_cons (s.withFetchWord_pending nbits w)
  rw [decodeTableWord_eq]
  cases hd : decode (PortInput.ofBits nbits w) with
  | ok i =>
    refine ⟨fun j hj => ?_, fun hn => nomatch hn⟩
    obtain rfl := Option.some.inj hj
    exact step_of_decode_ok hnext hd
  | error e =>
    refine ⟨fun j hj => (nomatch hj), fun _ => ?_⟩
    rw [step_of_decode_error hnext hd]
    exact refuse_eq_refused e

/-- Settles O41: the edge port is the edge rule, the valid port the valid bit. -/
theorem outputPortValues : Obligations.OutputPortValues := fun s =>
  ⟨if_congr s.edge_eq_pressed_iff rfl rfl, by cases h : s.snapValid <;> simp [State.outputs, h], rfl, rfl⟩

/-- Settles O52, from what each line expands to and both answers of a token. -/
theorem plainAssemblyLines : Obligations.PlainAssemblyLines := by
  refine ⟨rfl, fun pin => ⟨rfl, rfl⟩, fun f i h => ?_, fun t => ?_⟩
  · rw [AsmOp.expand, h]
    rfl
  · exact ⟨levelOfToken_eq_high_iff t, levelOfToken_eq_low_iff t⟩

end Sys2Proof.Machine
end

section
/-! PROOFS. The field extractor (40_field_extractor.md): the words with a row's operation code, the bytes of two given
fields, a frame that is not accepted, the same frame twice, and the statements of the family. -/

namespace Sys2Proof

/-! ### Words with a row's operation code (30_encoding.md section 6) -/

theorem opcodeTable_opField_injective :
    ∀ a ∈ opcodeTable, ∀ b ∈ opcodeTable, opField a.pattern = opField b.pattern → a = b := by
  decide

theorem opcodeTable_mask_covers_op : ∀ row ∈ opcodeTable, opField row.mask = BitVec.allOnes 2 := by
  decide

/-- A word that matches a row has the row's operation code. -/
theorem opField_of_matches_row {row : OpcodeRow} (hrow : row ∈ opcodeTable) {cmd : CmdWord}
    (h : cmd &&& row.mask = row.pattern) : opField cmd = opField row.pattern := by
  rw [← h, opField, opField, BitVec.extractLsb'_and]
  show _ = _ &&& opField row.mask
  rw [opcodeTable_mask_covers_op row hrow, BitVec.and_allOnes]

/-- A word with a row's operation code that does not match the row is refused: the row is the only one with that code, and
every decoded word matches some row. -/
theorem decode_error_of_not_matches_row {row : OpcodeRow} (hrow : row ∈ opcodeTable) {p : PortInput}
    (ho : opField p.cmd = opField row.pattern) (h : p.cmd &&& row.mask ≠ row.pattern) :
    ∃ e, decode p = .error e := by
  cases hd : decode p with
  | error e => exact ⟨e, rfl⟩
  | ok i =>
    obtain ⟨-, hcmd, -⟩ := (decode_eq_ok_iff p i).1 hd
    obtain ⟨row', hrow', -, hmatch⟩ := encode_matches_some_row i
    rw [hcmd] at hmatch
    obtain rfl := opcodeTable_opField_injective row' hrow' row hrow ((opField_of_matches_row hrow' hmatch).symm.trans ho)
    exact absurd hmatch h

theorem Instr.mnemonic_eq_frame_iff (i : Instr) :
    i.mnemonic = "FRAME" ↔ ∃ len id payload, i = .frame len id payload := by
  cases i <;> simp [Instr.mnemonic]

/-- A word of FRAME's row decodes to the FRAME of its length field and of what the operand ports carry
(40_field_extractor.md R55). -/
theorem decode_of_matches_frame_row {p : PortInput} (h : p.cmd &&& 0xFF87#16 = 0x0002#16) :
    ∃ len : Byte, len.toNat = p.cmd.toNat / 8 % 16 ∧
      decode p = .ok (.frame len p.frameId (payloadOfPort p.framePayload)) := by
  obtain ⟨i, hd, hm⟩ := decode_of_matches_row (row := ⟨"FRAME", 0xFF87#16, 0x0002#16⟩) (by decide) h
  obtain ⟨len, id, payload, rfl⟩ := i.mnemonic_eq_frame_iff.1 hm
  obtain ⟨hlen, hcmd, rfl, rfl⟩ := (decode_eq_frame_iff p len id payload).1 hd
  refine ⟨len, ?_, hd⟩
  rw [← hcmd, encode_frame_toNat hlen]
  omega

end Sys2Proof

namespace Sys2Proof.Machine

/-! ### A payload for every pair of field values (40_field_extractor.md R56) -/

/-- The payload that carries the two fields at their offsets, every other byte 0 (00_scope.md R9). -/
def payloadOfFields (v : BitVec 16) (c : Byte) : Payload :=
  #v[v.extractLsb' 8 8, v.extractLsb' 0 8, 0#8, 0#8, c, 0#8, 0#8, 0#8]

@[simp] theorem extractVolt_payloadOfFields (v : BitVec 16) (c : Byte) : extractVolt (payloadOfFields v c) = v := by
  rw [extractVolt_eq]
  show v.extractLsb' 8 8 ++ v.extractLsb' 0 8 = v
  rw [BitVec.extractLsb'_append_extractLsb'_eq_extractLsb' (show 8 = 0 + 8 from rfl)]
  exact BitVec.extractLsb'_eq_self

@[simp] theorem extractSoc_payloadOfFields (v : BitVec 16) (c : Byte) : extractSoc (payloadOfFields v c) = c :=
  extractSoc_eq _

/-! ### Accepted and rejected frames (40_field_extractor.md R54, R57, R58) -/

/-- A frame is rejected for its identifier, for being too short or for being too long. -/
theorem not_frameAccepted_iff (id : FrameId) (len : Nat) :
    ¬ FrameAccepted id len ↔ id ≠ Config.bmsId ∨ len < 5 ∨ 8 < len := by
  rw [FrameAccepted, not_and_or, not_and_or, Nat.not_le, Nat.not_le]

/-- The state a frame leaves is one the same frame leaves as it is. -/
theorem exec_frame_again {len : Byte} {id : FrameId} {payload : Payload} {s t : State}
    (h : exec (.frame len id payload) s = .next t) : exec (.frame len id payload) t = .next t := by
  by_cases ha : FrameAccepted id len.toNat
  · rw [exec_frame_of_accepted ha] at h ⊢
    obtain rfl := Host.Outcome.next.inj h
    rw [State.writeSnapshot_writeSnapshot]
  · exact exec_frame_of_not_accepted ha payload t

/-! ### The statements of 40_field_extractor.md -/

/-- Settles O26: the model's two length bounds are 5 and 8. -/
theorem acceptanceConditions : Obligations.AcceptanceConditions := accept_iff_frameAccepted

/-- Settles O19: the fields an accepted frame writes are its bytes 0 and 1, and 4. -/
theorem frameCompletes : Obligations.FrameCompletes := by
  refine fun len id payload s => ⟨fun ha => ?_, fun ha => exec_frame_of_not_accepted ha payload s⟩
  rw [exec_frame_of_accepted ha, extractVolt_eq, extractSoc_eq]
  rfl

/-- Settles O24: a word of FRAME's row carries its length, and the bytes at offsets 0, 1 and 4 stand at their port bits. -/
theorem frameWordEffect : Obligations.FrameWordEffect := by
  refine ⟨fun p s h => ?_, fun p ho h =>
    decode_error_of_not_matches_row (row := ⟨"FRAME", 0xFF87#16, 0x0002#16⟩) (by decide)
      ((opField_eq_iff p.cmd 0b10#2).2 ho) h⟩
  obtain ⟨len, hlen, hd⟩ := decode_of_matches_frame_row h
  have heffect := frameCompletes len p.frameId (payloadOfPort p.framePayload) s
  simp only [payloadOfPort_getElem, hlen] at heffect
  exact ⟨_, hd, heffect⟩

/-- Settles O28: the two reads of the field table, and the payload that carries a given pair of values. -/
theorem fieldPrimitiveInstances : Obligations.FieldPrimitiveInstances := by
  refine ⟨fun payload => ⟨extractVolt_eq_shiftLeft_or payload, extractSoc_eq payload,
    Nat.le_of_lt_succ (extractVolt payload).isLt, Nat.le_of_lt_succ (extractSoc payload).isLt⟩, fun v c hv hc => ?_⟩
  refine ⟨payloadOfFields (BitVec.ofNat 16 v) (BitVec.ofNat 8 c), ?_, ?_⟩
  · rw [extractVolt_payloadOfFields, BitVec.toNat_ofNat]
    omega
  · rw [extractSoc_payloadOfFields, BitVec.toNat_ofNat]
    omega

/-- Settles O29: an accepted frame replaces the snapshot whole, so neither its own earlier write nor any other shows. -/
theorem frameIdempotentWithoutHistory : Obligations.FrameIdempotentWithoutHistory := by
  refine ⟨fun len id payload s => ?_, fun len id payload s s' ha => ?_⟩
  · obtain ⟨t, ht⟩ := exec_completes (.frame len id payload) s
    exact ⟨t, ht, exec_frame_again ht⟩
  · obtain ⟨t, ht⟩ := exec_completes (.frame len id payload) s
    obtain ⟨t', ht'⟩ := exec_completes (.frame len id payload) s'
    have hsets := (setsSnapshot_frame_iff len id payload).2 ha
    exact ⟨t, t', ht, ht', (exec_snapshot_of_sets ht hsets).trans (exec_snapshot_of_sets ht' hsets).symm⟩

/-- Settles O30: any one failing condition makes the frame rejected. -/
theorem rejectedFrameChangesNothing : Obligations.RejectedFrameChangesNothing := fun len id payload s h =>
  ⟨s, exec_frame_of_not_accepted ((not_frameAccepted_iff id len.toNat).2 h) payload s, rfl, rfl⟩

end Sys2Proof.Machine
end

section
/-! PROOFS. The edge detector (41_edge_detector.md): the words of SAMPLE's row, the edge after a SAMPLE and its count over a
run, the order of operations on the two sub-blocks, and the statements of the family. -/

namespace Sys2Proof

/-! ### The words of SAMPLE's row (30_encoding.md section 6) -/

theorem Instr.mnemonic_eq_sample_iff (i : Instr) : i.mnemonic = "SAMPLE" ↔ ∃ pin, i = .sample pin := by
  cases i <;> simp [Instr.mnemonic]

theorem pinField_encode_sample (pin : Level) : pinField (encode (.sample pin)).cmd = pin.toBit :=
  pinField_cmdOfFields _ _ _

/-- A word of SAMPLE's row decodes to the SAMPLE of the level at bit 2 (41_edge_detector.md R59). -/
theorem decode_of_matches_sample_row {p : PortInput} (h : p.cmd &&& 0xFFFB#16 = 0x0001#16) :
    decode p = .ok (.sample (if p.cmd.toNat / 4 % 2 = 1 then .high else .low)) := by
  obtain ⟨i, hd, hm⟩ := decode_of_matches_row (row := ⟨"SAMPLE", 0xFFFB#16, 0x0001#16⟩) (by decide) h
  obtain ⟨pin, rfl⟩ := i.mnemonic_eq_sample_iff.1 hm
  obtain ⟨-, hcmd, -⟩ := (decode_eq_ok_iff p (.sample pin)).1 hd
  rw [hd, ← Level.ofBit_pinField, ← hcmd, pinField_encode_sample, Level.ofBit_toBit]

theorem Edge.eq_none_of_ne_pressed {e : Edge} (h : e ≠ .pressed) : e = .none := by
  cases e with
  | none => rfl
  | pressed => exact absurd rfl h

end Sys2Proof

namespace Sys2Proof.Machine

/-! ### The edge (41_edge_detector.md R59, R60) -/

/-- A SAMPLE ends with an edge exactly when the old latest level was HIGH and the pin is LOW. -/
theorem State.edge_takeSample_eq_pressed_iff (pin : Level) (s : State) :
    (s.takeSample pin).edge = .pressed ↔ s.curSample = .high ∧ pin = .low :=
  State.edge_eq_pressed_iff (s.takeSample pin)

theorem State.outputs_edge_eq_one_iff (s : State) : s.outputs.edge = 1#1 ↔ s.edge = .pressed := by
  cases h : s.edge <;> simp [State.outputs, h]

/-! ### The edges of a run (41_edge_detector.md R63) -/

/-- Without an INIT, the SAMPLEs that end with an edge are the falls of the latest level followed by the sampled ones. -/
theorem pressedSamples_eq_fallCount {ops : List Instr} (hn : ∀ i ∈ ops, isInit i = false) (s : State) :
    pressedSamples ops s = fallCount (s.curSample :: sampledLevels ops) := by
  induction ops generalizing s with
  | nil => rfl
  | cons i ops ih =>
    have hrest := ih fun j hj => hn j (List.mem_cons_of_mem i hj)
    obtain ⟨t, ht⟩ := exec_completes i s
    rw [pressedSamples_cons_of_next ht, hrest]
    cases hi : isSample i with
    | true =>
      obtain ⟨pin, rfl⟩ := (isSample_eq_true_iff i).1 hi
      obtain rfl := Host.Outcome.next.inj ht
      simp [State.edge_takeSample_eq_pressed_iff, sampledLevels, fallCount_cons_cons]
    | false =>
      obtain ⟨-, hcur⟩ := exec_samples_unchanged ht hi (hn i List.mem_cons_self)
      simp [hcur, sampledLevels_cons_of_not_sample hi]

/-! ### The order of operations on the two sub-blocks (41_edge_detector.md R62) -/

/-- A state is its sample registers, its snapshot and the host's stream. -/
theorem State.eq_of_parts_eq {s t : State} (hprev : s.prevSample = t.prevSample) (hcur : s.curSample = t.curSample)
    (hsnap : s.snapshot = t.snapshot) (hpend : s.pending = t.pending) : s = t := by
  cases s
  cases t
  simp_all [State.snapshot]

theorem execAll_pending {ops : List Instr} {s t : State} (h : execAll ops s = .next t) : t.pending = s.pending := by
  induction ops generalizing s with
  | nil => exact Host.Outcome.next.inj h ▸ rfl
  | cons i ops ih =>
    obtain ⟨u, hu, ht⟩ := (execAll_cons_iff i ops s t).1 h
    exact (ih ht).trans (exec_pending hu)

theorem isInit_eq_false_of_sample_or_frame {i : Instr} (h : isSample i = true ∨ isFrame i = true) :
    isInit i = false := by
  cases i <;> simp_all [isSample, isFrame, isInit]

/-- The sampled levels are those of the SAMPLE operations alone. -/
theorem sampledLevels_filter_isSample (ops : List Instr) : sampledLevels (ops.filter isSample) = sampledLevels ops := by
  induction ops with
  | nil => rfl
  | cons i ops ih =>
    cases hi : isSample i with
    | true =>
      obtain ⟨pin, rfl⟩ := (isSample_eq_true_iff i).1 hi
      rw [List.filter_cons_of_pos hi, sampledLevels, sampledLevels, ih]
    | false => rw [List.filter_cons_of_neg (by simp [hi]), sampledLevels_cons_of_not_sample hi, ih]

/-- Without an INIT, only a FRAME can determine the snapshot. -/
theorem setsSnapshot_eq_false_of_not_frame {i : Instr} (hf : isFrame i = false) (hn : isInit i = false) :
    setsSnapshot i = false := by
  cases i with
  | nop => rfl
  | sample pin => rfl
  | frame len id payload => cases hf
  | init pin => cases hn

theorem latestSnapshotOp_filter_isFrame {ops : List Instr} (hn : ∀ i ∈ ops, isInit i = false) :
    latestSnapshotOp (ops.filter isFrame) = latestSnapshotOp ops := by
  induction ops with
  | nil => rfl
  | cons i ops ih =>
    have hrest := ih fun j hj => hn j (List.mem_cons_of_mem i hj)
    cases hi : isFrame i with
    | true => rw [List.filter_cons_of_pos hi, latestSnapshotOp_cons, latestSnapshotOp_cons, hrest]
    | false =>
      have hsets := setsSnapshot_eq_false_of_not_frame hi (hn i List.mem_cons_self)
      rw [List.filter_cons_of_neg (by simp [hi]), hrest, latestSnapshotOp_cons]
      simp [hsets]

/-- Two sequences without an INIT that have the same SAMPLEs in order and the same FRAMEs in order answer the same state: the
sample registers depend on the former alone, the snapshot on the latter alone. -/
theorem execAll_eq_of_filter_eq {ops ops' : List Instr} (hn : ∀ i ∈ ops, isInit i = false)
    (hn' : ∀ i ∈ ops', isInit i = false) (hsample : ops.filter isSample = ops'.filter isSample)
    (hframe : ops.filter isFrame = ops'.filter isFrame) (s : State) : execAll ops s = execAll ops' s := by
  obtain ⟨t, ht⟩ := execAll_completes ops s
  obtain ⟨t', ht'⟩ := execAll_completes ops' s
  have hlevels : sampledLevels ops = sampledLevels ops' := by
    rw [← sampledLevels_filter_isSample, hsample, sampledLevels_filter_isSample]
  have hlatest : latestSnapshotOp ops = latestSnapshotOp ops' := by
    rw [← latestSnapshotOp_filter_isFrame hn, hframe, latestSnapshotOp_filter_isFrame hn']
  have hsamples : [t.prevSample, t.curSample] = [t'.prevSample, t'.curSample] := by
    rw [execAll_samples hn ht, execAll_samples hn' ht', hlevels]
  obtain ⟨hprev, hcur⟩ : t.prevSample = t'.prevSample ∧ t.curSample = t'.curSample := by simpa using hsamples
  have hsnap : t.snapshot = t'.snapshot := by rw [execAll_snapshot ht, execAll_snapshot ht', hlatest]
  have hpend : t.pending = t'.pending := (execAll_pending ht).trans (execAll_pending ht').symm
  rw [ht, ht', State.eq_of_parts_eq hprev hcur hsnap hpend]

/-- No operation belongs to both sub-blocks. -/
theorem isSample_and_isFrame (i : Instr) : (isSample i && isFrame i) = false := by
  cases i <;> rfl

/-- Grouping a sequence by sub-block, in either order of the groups, keeps each group. -/
theorem filter_grouped (ops : List Instr) :
    (ops.filter isSample ++ ops.filter isFrame).filter isSample = ops.filter isSample ∧
    (ops.filter isSample ++ ops.filter isFrame).filter isFrame = ops.filter isFrame ∧
    (ops.filter isFrame ++ ops.filter isSample).filter isSample = ops.filter isSample ∧
    (ops.filter isFrame ++ ops.filter isSample).filter isFrame = ops.filter isFrame := by
  have hcomm : ∀ i, (isFrame i && isSample i) = false := fun i => (Bool.and_comm _ _).trans (isSample_and_isFrame i)
  simp [List.filter_append, List.filter_filter, isSample_and_isFrame, hcomm]

/-! ### The statements of 41_edge_detector.md -/

/-- Settles O18: SAMPLE's answer, field by field. -/
theorem sampleCompletes : Obligations.SampleCompletes := exec_sample

/-- Settles O40: an operation that is neither SAMPLE nor INIT leaves the sample registers, and the edge with them. -/
theorem edgeOutputRule : Obligations.EdgeOutputRule := by
  refine ⟨fun s => ⟨s.edge_eq_pressed_iff, Edge.eq_none_of_ne_pressed, s.outputs_edge_eq_one_iff⟩,
    fun i s t h hne => ?_⟩
  by_contra hi
  obtain ⟨hs, hn⟩ := not_or.1 hi
  exact hne (exec_edge_unchanged h (Bool.eq_false_iff.2 hs) (Bool.eq_false_iff.2 hn))

/-- Settles O23: a word of SAMPLE's row carries its level, and the edge it ends with is a fall from the old latest level. -/
theorem sampleWordEffect : Obligations.SampleWordEffect := by
  refine ⟨fun p s h => ⟨_, decode_of_matches_sample_row h, sampleCompletes _ s⟩, fun p ho h => ?_, fun s pin =>
    ⟨_, exec_sample pin s, State.edge_takeSample_eq_pressed_iff pin s⟩⟩
  exact decode_error_of_not_matches_row (row := ⟨"SAMPLE", 0xFFFB#16, 0x0001#16⟩) (by decide)
    ((opField_eq_iff p.cmd 0b01#2).2 ho) h

/-- Settles O43: INIT leaves its level as the latest one, and each SAMPLE after it ends with an edge exactly at a fall. -/
theorem edgeCountLaw : Obligations.EdgeCountLaw := by
  intro s0 ops s hn
  obtain ⟨t, ht⟩ := execAll_completes ops (s.holdSample s0).clearSnapshot
  exact ⟨_, t, exec_init s0 s, ht, pressedSamples_eq_fallCount hn _⟩

/-- Settles O44: a sequence and its two groupings have the same SAMPLEs and the same FRAMEs in order. -/
theorem subBlocksInterleaveFreely : Obligations.SubBlocksInterleaveFreely := by
  refine ⟨fun pin s s' _ hcur => ?_, fun len id payload s s' hsnap => ?_, fun ops s hops => ?_⟩
  · exact ⟨_, _, exec_sample pin s, exec_sample pin s', State.takeSample_snapshot pin s, hcur, rfl⟩
  · obtain ⟨t, ht⟩ := exec_completes (.frame len id payload) s
    obtain ⟨t', ht'⟩ := exec_completes (.frame len id payload) s'
    obtain ⟨hprev, hcur⟩ := exec_samples_unchanged ht rfl rfl
    exact ⟨t, t', ht, ht', hprev, hcur, by rw [exec_snapshot ht, exec_snapshot ht', hsnap]⟩
  · have hn : ∀ i ∈ ops, isInit i = false := fun i hi => isInit_eq_false_of_sample_or_frame (hops i hi)
    have hns : ∀ i ∈ ops.filter isSample, isInit i = false := fun i hi => hn i (List.mem_of_mem_filter hi)
    have hnf : ∀ i ∈ ops.filter isFrame, isInit i = false := fun i hi => hn i (List.mem_of_mem_filter hi)
    obtain ⟨hss, hsf, hfs, hff⟩ := filter_grouped ops
    obtain ⟨t, ht⟩ := execAll_completes ops s
    refine ⟨t, ht, ?_, ?_⟩
    · exact (execAll_eq_of_filter_eq (List.forall_mem_append.2 ⟨hns, hnf⟩) hn hss hsf s).trans ht
    · exact (execAll_eq_of_filter_eq (List.forall_mem_append.2 ⟨hnf, hns⟩) hn hfs hff s).trans ht

end Sys2Proof.Machine
end

section
/-! PROOFS. Block control (42_block_control.md): the words of INIT's row, INIT as power-on reset, what it leaves a consumer
to read, and the statements of the family. -/

namespace Sys2Proof

/-! ### The words of INIT's row (30_encoding.md section 6) -/

theorem Instr.mnemonic_eq_init_iff (i : Instr) : i.mnemonic = "INIT" ↔ ∃ pin, i = .init pin := by
  cases i <;> simp [Instr.mnemonic]

theorem pinField_encode_init (pin : Level) : pinField (encode (.init pin)).cmd = pin.toBit :=
  pinField_cmdOfFields _ _ _

/-- A word of INIT's row decodes to the INIT of the level at bit 2 (42_block_control.md R64). -/
theorem decode_of_matches_init_row {p : PortInput} (h : p.cmd &&& 0xFFFB#16 = 0x0003#16) :
    decode p = .ok (.init (if p.cmd.toNat / 4 % 2 = 1 then .high else .low)) := by
  obtain ⟨i, hd, hm⟩ := decode_of_matches_row (row := ⟨"INIT", 0xFFFB#16, 0x0003#16⟩) (by decide) h
  obtain ⟨pin, rfl⟩ := i.mnemonic_eq_init_iff.1 hm
  obtain ⟨-, hcmd, -⟩ := (decode_eq_ok_iff p (.init pin)).1 hd
  rw [hd, ← Level.ofBit_pinField, ← hcmd, pinField_encode_init, Level.ofBit_toBit]

/-! ### The word of NOP (42_block_control.md R66) -/

theorem decode_eq_nop_iff (p : PortInput) : decode p = .ok .nop ↔ p.cmd = 0x0000#16 := by
  rw [decode_eq_ok_iff]
  exact ⟨fun ⟨_, hcmd, _⟩ => hcmd.symm, fun h => ⟨rfl, h.symm, rfl⟩⟩

end Sys2Proof

namespace Sys2Proof.Machine

/-! ### INIT as power-on reset (42_block_control.md R64, R65) -/

/-- INIT's two writes cover every register of the block, so together they are power-on reset. -/
theorem State.clearSnapshot_holdSample (pin : Level) (s : State) :
    (s.holdSample pin).clearSnapshot = s.powerOnReset pin := rfl

theorem exec_init_eq_powerOnReset (pin : Level) (s : State) : exec (.init pin) s = .next (s.powerOnReset pin) := by
  rw [exec_init, State.clearSnapshot_holdSample]

/-- INIT reads no register: it answers alike in states that differ in their registers only. -/
theorem exec_init_congr {s t : State} (h : s.pending = t.pending) (pin : Level) :
    exec (.init pin) s = exec (.init pin) t := by
  rw [exec_init_eq_powerOnReset, exec_init_eq_powerOnReset, State.powerOnReset, State.powerOnReset, h]

/-! ### What a consumer reads after power-on reset (10_state.md R21, 41_edge_detector.md R60) -/

@[simp] theorem State.powerOnReset_edge (pin : Level) (s : State) : (s.powerOnReset pin).edge = .none :=
  State.edge_holdSample pin s

@[simp] theorem State.powerOnReset_voltageV (pin : Level) (s : State) : (s.powerOnReset pin).voltageV = -1 :=
  State.voltageV_invalid (s.powerOnReset_snapValid pin)

@[simp] theorem State.powerOnReset_socPct (pin : Level) (s : State) : (s.powerOnReset pin).socPct = -1 :=
  State.socPct_invalid (s.powerOnReset_snapValid pin)

/-! ### The statements of 42_block_control.md -/

/-- Settles O17: NOP's answer is the state it was given. -/
theorem nopCompletes : Obligations.NopCompletes := exec_nop

/-- Settles O20: INIT's answer, field by field. -/
theorem initCompletes : Obligations.InitCompletes := exec_init

/-- Settles O48: the registers INIT writes are the ones reset does, each to the same value. -/
theorem resetActsAsInit : Obligations.ResetActsAsInit := exec_init_eq_powerOnReset

/-- Settles O22: NOP's row has one word, and it is the only row with that operation code. -/
theorem nopWordEffect : Obligations.NopWordEffect := by
  refine ⟨fun p s h => ⟨.nop, (decode_eq_nop_iff p).2 h, nopCompletes s⟩, fun p ho h => ?_⟩
  have hmiss : p.cmd &&& BitVec.allOnes 16 ≠ 0x0000#16 := by rwa [BitVec.and_allOnes]
  exact decode_error_of_not_matches_row (row := ⟨"NOP", 0xFFFF#16, 0x0000#16⟩) (by decide)
    ((opField_eq_iff p.cmd 0b00#2).2 ho) hmiss

/-- Settles O25: a word of INIT's row carries its level; INIT leaves what power-on reset leaves, and a second INIT reads
nothing the first one wrote. -/
theorem initWordEffect : Obligations.InitWordEffect := by
  refine ⟨fun p s h => ⟨_, decode_of_matches_init_row h, initCompletes _ s⟩, fun p ho h => ?_, fun s pin => ?_,
    fun s a b => ?_⟩
  · exact decode_error_of_not_matches_row (row := ⟨"INIT", 0xFFFB#16, 0x0003#16⟩) (by decide)
      ((opField_eq_iff p.cmd 0b11#2).2 ho) h
  · exact ⟨_, resetActsAsInit pin s, s.powerOnReset_edge pin, s.powerOnReset_voltageV pin, s.powerOnReset_socPct pin⟩
  · obtain ⟨t, ht⟩ := exec_completes (.init a) s
    exact ⟨t, ht, exec_init_congr (exec_pending ht) b⟩

end Sys2Proof.Machine
end

section
/-! PROOFS. Exceptions and the tick (60_exceptions.md): a refused word and the run it ends, the words on which a step
completes, what TICK lines expand to, and the statements of the family. -/

namespace Sys2Proof.Machine

/-! ### A refused word (60_exceptions.md R73) -/

theorem refuse_eq_refused_cases {e : DecodeError} {r : Refusal} (h : refuse e = .refused r) :
    r = .reservedBits ∨ r = .unusedFieldNonzero := by
  cases e with
  | reservedBits => exact .inl (Host.Outcome.refused.inj h).symm
  | unusedFieldNonzero => exact .inr (Host.Outcome.refused.inj h).symm

theorem exec_ne_refused (i : Instr) (s : State) (r : Refusal) : exec i s ≠ .refused r := by
  obtain ⟨t, ht⟩ := exec_completes i s
  simp [ht]

/-- A step refuses only where the decoder does, and with one of its two reasons. -/
theorem step_eq_refused_cases {s : State} {r : Refusal} (h : step s = .refused r) :
    r = .reservedBits ∨ r = .unusedFieldNonzero := by
  obtain ⟨-, hstep⟩ | ⟨_, _, i, -, -, hstep⟩ | ⟨_, _, e, -, -, hstep⟩ := step_cases s
  · cases hstep.symm.trans h
  · exact absurd (hstep.symm.trans h) (exec_ne_refused i _ r)
  · exact refuse_eq_refused_cases (hstep.symm.trans h)

/-- A run that has met a refused word gives the same answer at every longer length (log 9). -/
theorem run_add_of_refused {k : Nat} {s : State} {r : Refusal} (h : run k s = .refused r) (m : Nat) :
    run (k + m) s = .refused r := by
  induction k generalizing s with
  | zero => cases (run_zero s).symm.trans h
  | succ k ih =>
    rw [Nat.add_right_comm]
    cases hk : step s with
    | next t => exact (run_succ_of_next hk (k + m)).trans (ih (run_succ_of_next hk k ▸ h))
    | fault r' => exact nomatch r'
    | refused r' =>
      rw [run_succ_of_refused hk] at h ⊢
      exact h

theorem not_goodRun_of_refused {k : Nat} {s : State} {r : Refusal} (h : run k s = .refused r) : ¬ GoodRun k s := by
  rintro ⟨t, ht⟩
  cases h.symm.trans ht

/-! ### The words on which a step completes (60_exceptions.md R75) -/

/-- A step completes exactly if the decoder accepts the word taken: every decoded operation completes. -/
theorem step_completes_iff {s : State} {p : PortInput} {rest : List PortInput} (h : s.pending = p :: rest) :
    (∃ t, step s = .next t) ↔ ∃ i, decode p = .ok i := by
  have hnext := State.takeNext?_cons h
  cases hd : decode p with
  | ok i =>
    rw [step_of_decode_ok hnext hd]
    exact iff_of_true (exec_completes i _) ⟨i, rfl⟩
  | error e =>
    rw [step_of_decode_error hnext hd]
    exact iff_of_false (fun ⟨t, ht⟩ => refuse_ne_next e t ht) (fun ⟨_, hi⟩ => nomatch hi)

/-! ### What a tick issues (60_exceptions.md R81, 70_reset_and_hazards.md R88) -/

/-- The operations of one tick: a SAMPLE, and after it at most one FRAME, which a command word can spell. -/
inductive IsTickOps : List Instr → Prop
  | noFrame (pin : Level) : IsTickOps [.sample pin]
  | withFrame (pin : Level) (len : Byte) (id : FrameId) (payload : Payload)
      (hwf : (Instr.frame len id payload).WellFormed) : IsTickOps [.sample pin, .frame len id payload]

theorem AsmOp.expand_tick (pin : Level) : (AsmOp.tick pin).expand = some [.sample pin] := rfl

theorem AsmOp.expand_tickFrame_eq_map (pin : Level) (f : AsmFrame) :
    (AsmOp.tickFrame pin f).expand = f.toInstr.map fun i => [.sample pin, i] := rfl

/-- A written frame that assembles is a FRAME that a command word can spell (30_encoding.md R53). -/
theorem AsmFrame.toInstr_wellFormed {f : AsmFrame} {i : Instr} (h : f.toInstr = some i) : i.WellFormed := by
  obtain ⟨-, -, hwf⟩ := assembledFrameLine.2 f i h
  exact hwf

theorem AsmOp.isTickOps_of_expand_tickFrame {pin : Level} {f : AsmFrame} {ops : List Instr}
    (h : (AsmOp.tickFrame pin f).expand = some ops) : IsTickOps ops := by
  obtain ⟨i, hi, rfl⟩ := Option.map_eq_some_iff.1 h
  obtain ⟨-, rfl⟩ := AsmFrame.eq_of_toInstr_eq_some hi
  exact .withFrame pin _ _ _ (AsmFrame.toInstr_wellFormed hi)

/-- Each expansion of a list of TICK lines is the operations of one tick. -/
theorem isTickOps_of_map_expand {ticks : List AsmOp} {opss : List (List Instr)}
    (hticks : ∀ a ∈ ticks, (∃ pin, a = .tick pin) ∨ ∃ pin f, a = .tickFrame pin f)
    (hexp : ticks.map AsmOp.expand = opss.map some) : ∀ ops ∈ opss, IsTickOps ops := by
  intro ops hops
  have hmem : some ops ∈ ticks.map AsmOp.expand := hexp ▸ List.mem_map_of_mem hops
  obtain ⟨a, ha, hexpand⟩ := List.mem_map.1 hmem
  obtain ⟨pin, rfl⟩ | ⟨pin, f, rfl⟩ := hticks a ha
  · obtain rfl := Option.some.inj ((AsmOp.expand_tick pin).symm.trans hexpand)
    exact .noFrame pin
  · exact AsmOp.isTickOps_of_expand_tickFrame hexpand

theorem IsTickOps.wellFormed {ops : List Instr} (h : IsTickOps ops) : ∀ i ∈ ops, i.WellFormed := by
  cases h with
  | noFrame pin => exact List.forall_mem_singleton.2 rfl
  | withFrame pin len id payload hwf => exact List.forall_mem_cons.2 ⟨rfl, List.forall_mem_singleton.2 hwf⟩

/-- A tick keeps the order whatever came before it: its SAMPLE opens the tick, and its FRAME, if any, comes next. -/
theorem IsTickOps.keepsTickOrder_append {ops : List Instr} (h : IsTickOps ops) (o : Bool) {more : List Instr}
    (hmore : ∀ o', keepsTickOrder o' more = true) : keepsTickOrder o (ops ++ more) = true := by
  cases h with
  | noFrame pin => exact hmore true
  | withFrame pin len id payload => exact hmore false

theorem keepsTickOrder_flatten {opss : List (List Instr)} (h : ∀ ops ∈ opss, IsTickOps ops) (o : Bool) :
    keepsTickOrder o opss.flatten = true := by
  induction opss generalizing o with
  | nil => cases o <;> rfl
  | cons ops opss ih =>
    obtain ⟨hops, hrest⟩ := List.forall_mem_cons.1 h
    exact hops.keepsTickOrder_append o (ih hrest)

/-! ### The statements of 60_exceptions.md -/

/-- Settles O11: a step that finds no operation issued idles. -/
theorem stepWithNothingIssued : Obligations.StepWithNothingIssued := fun _ hp =>
  step_of_takeNext?_none (State.takeNext?_nil hp)

/-- Settles O14: each of the four operations answers a next state. -/
theorem everyOperationLegalInEveryState : Obligations.EveryOperationLegalInEveryState := exec_completes

/-- Settles O31: each malformed frame fails one of the conditions of acceptance; a zero length is below the shortest one. -/
theorem malformedFramesIgnored : Obligations.MalformedFramesIgnored := by
  have hrejected := fun (len : Byte) (id : FrameId) h =>
    exec_frame_of_not_accepted ((not_frameAccepted_iff id len.toNat).2 h)
  refine fun payload s => ⟨fun len id hid => ?_, fun len hlen => ?_, fun len hlen _ => ?_, fun id => ?_⟩
  · exact hrejected len id (.inl hid) payload s
  · exact hrejected len _ (.inr (.inl hlen)) payload s
  · exact hrejected len _ (.inr (.inr hlen)) payload s
  · exact hrejected 0#8 id (.inr (.inl (by decide))) payload s

/-- Settles O15: a step completes where the decoder accepts the word, which is on the legal words. -/
theorem stepCompletesExactlyOnLegalWords : Obligations.StepCompletesExactlyOnLegalWords := by
  intro s p rest hp
  rw [step_completes_iff hp, decode_completes_iff, mem_legalWords_iff]

/-- Settles O12: the step answers the decoder's reason, and by induction on the steps a longer run keeps that answer. -/
theorem refusedWordEndsTheRun : Obligations.RefusedWordEndsTheRun := by
  refine ⟨fun s p rest hp => ?_, fun s r => step_eq_refused_cases, fun s k r h m => ?_⟩
  · have hnext := State.takeNext?_cons hp
    exact ⟨step_of_decode_error hnext, step_of_decode_error hnext⟩
  · have hlonger := run_add_of_refused h m
    exact ⟨hlonger, not_goodRun_of_refused hlonger⟩

/-- Settles O51: each line of a list of TICK lines issues one tick, and by induction the ticks keep the order. -/
theorem ticksKeepHostOrder : Obligations.TicksKeepHostOrder := by
  refine ⟨AsmOp.expand_tick, fun pin f i hf => ?_, fun pin f hf => ?_, fun ticks opss o hticks hexp => ?_⟩
  · rw [AsmOp.expand_tickFrame_eq_map, hf]
    rfl
  · rw [AsmOp.expand_tickFrame_eq_map, hf]
    rfl
  · have hops := isTickOps_of_map_expand hticks hexp
    refine ⟨keepsTickOrder_flatten hops o, fun i hi => ?_⟩
    obtain ⟨ops, hmem, hiops⟩ := List.mem_flatten.1 hi
    exact (hops ops hmem).wellFormed i hiops

end Sys2Proof.Machine
end

section
/-! PROOFS. Reset and the hazards (70_reset_and_hazards.md): the edge over a run that takes no sample, what a consumer reads
after reset, and the statements of the family. -/

namespace Sys2Proof.Machine

/-! ### The edge is a level (70_reset_and_hazards.md R91) -/

theorem not_sample_not_init_of_nop_or_frame {i : Instr} (h : i = .nop ∨ isFrame i = true) :
    isSample i = false ∧ isInit i = false := by
  cases i with
  | nop => exact ⟨rfl, rfl⟩
  | frame len id payload => exact ⟨rfl, rfl⟩
  | sample pin => simp [isFrame] at h
  | init pin => simp [isFrame] at h

/-- A run without SAMPLE and INIT holds the edge (41_edge_detector.md R60). -/
theorem execAll_edge_unchanged {ops : List Instr} {s t : State} (hops : ∀ i ∈ ops, isSample i = false ∧ isInit i = false)
    (h : execAll ops s = .next t) : t.edge = s.edge := by
  induction ops generalizing s with
  | nil => exact Host.Outcome.next.inj h ▸ rfl
  | cons i ops ih =>
    obtain ⟨⟨hs, hn⟩, hrest⟩ := List.forall_mem_cons.1 hops
    obtain ⟨u, hu, ht⟩ := (execAll_cons_iff i ops s t).1 h
    exact (ih hrest ht).trans (exec_edge_unchanged hu hs hn)

/-- The edge port is a function of the edge (30_encoding.md R47). -/
theorem State.outputs_edge_congr {s t : State} (h : s.edge = t.edge) : s.outputs.edge = t.outputs.edge := by
  simp only [State.outputs, h]

/-! ### What a consumer reads after reset (70_reset_and_hazards.md R87) -/

/-- Power-on reset leaves the reset state, but for the host's stream, which is outside the block (log 13). -/
theorem State.powerOnReset_eq (pin : Level) (s : State) :
    s.powerOnReset pin = { State.resetAt pin with pending := s.pending } := rfl

theorem State.powerOnReset_resetAt (pin : Level) : (State.resetAt pin).powerOnReset pin = State.resetAt pin := rfl

@[simp] theorem State.resetAt_edge (pin : Level) : (State.resetAt pin).edge = .none := by
  rw [← State.powerOnReset_resetAt, State.powerOnReset_edge]

@[simp] theorem State.resetAt_voltageV (pin : Level) : (State.resetAt pin).voltageV = -1 :=
  State.voltageV_invalid (State.resetAt_snapValid pin)

@[simp] theorem State.resetAt_socPct (pin : Level) : (State.resetAt pin).socPct = -1 :=
  State.socPct_invalid (State.resetAt_snapValid pin)

/-! ### The statements of 70_reset_and_hazards.md -/

/-- Settles O42, by induction on the run: NOP and FRAME write no sample register, and the edge port follows the edge. -/
theorem edgeHeldThroughNopAndFrame : Obligations.EdgeHeldThroughNopAndFrame := by
  intro ops s hops
  obtain ⟨t, ht⟩ := execAll_completes ops s
  have hedge := execAll_edge_unchanged (fun i hi => not_sample_not_init_of_nop_or_frame (hops i hi)) ht
  exact ⟨t, ht, hedge, State.outputs_edge_congr hedge⟩

/-- Settles O47: INIT leaves its level as the latest one, so the first SAMPLE's edge is a fall from that level. -/
theorem firstSampleAfterInit : Obligations.FirstSampleAfterInit := by
  intro s a b
  have hpressed := State.edge_takeSample_eq_pressed_iff b (s.powerOnReset a)
  rw [State.powerOnReset_curSample] at hpressed
  exact ⟨_, _, exec_init_eq_powerOnReset a s, exec_sample b _, s.powerOnReset_edge a, hpressed⟩

/-- Settles O49: the registers one by one, then INIT as the power-on reset of any state. -/
theorem resetValues : Obligations.ResetValues := by
  refine ⟨fun pin => ⟨rfl, rfl, rfl, rfl, rfl, State.resetAt_edge pin, State.resetAt_voltageV pin,
    State.resetAt_socPct pin, fun s => ?_⟩, rfl⟩
  rw [exec_init_eq_powerOnReset, State.powerOnReset_eq]

end Sys2Proof.Machine
end
